-- ==== Sys2Proof/Word.lean ====
section
/-! DEFINITION. The bit-vector types of the core (00_scope.md R11, R12, R20, R21).
All values are unsigned; the core has no signed operation. -/

namespace Sys2Proof

/-- A `V` register, a timer or a memory byte (R11, R14, R47). -/
abbrev Byte := BitVec 8

/-- An instruction word (30_encoding.md R68). -/
abbrev Word := BitVec 16

/-- The contents of `PC`, `I` or a stack entry (R12, R13). -/
abbrev Addr := BitVec 16

/-- A four-bit field: a register index, a row count or a sub-opcode (30_encoding.md R69). -/
abbrev Nibble := BitVec 4

/-- The twelve-bit address field `nnn` (30_encoding.md R69). -/
abbrev Addr12 := BitVec 12

/-- A register index `x` or `y` (10_state.md R26). -/
abbrev RegIdx := BitVec 4

/-- A key code 0..15 (00_scope.md R19). -/
abbrev Key := BitVec 4

end Sys2Proof
end

