-- ==== Sys2Proof/Config.lean ====
section
/-! DEFINITION. The parameters of the core (00_scope.md R9 to R19) and the free values.
The fixed parameters are constants; the parameters the spec leaves to the environment are the fields of `Config`,
which State carries as `cfg` (log 1), so that every statement about all states holds for every value of them. -/

namespace Sys2Proof

/-- `MEM_SIZE` (00_scope.md R9). -/
abbrev memSize : Nat := 4096

/-- `PROG_BASE` (R10). -/
abbrev progBase : Nat := 0x200

/-- `STACK_DEPTH` (R13). -/
abbrev stackDepth : Nat := 256

/-- The number of font bytes, `FONT_GLYPHS * FONT_GLYPH_BYTES` (R15). -/
abbrev fontSize : Nat := 80

/-- A framebuffer cell, column `x` and row `y`, both from 0 (60_exceptions.md R188). -/
structure Pixel where
  x : Nat
  y : Nat
deriving DecidableEq, Repr

/-- The order in which a screen is written out: row by row, and in a row by column. -/
abbrev Pixel.before (p q : Pixel) : Prop := p.y < q.y ∨ (p.y = q.y ∧ p.x < q.x)

/-- `FB_OFFSCREEN`: what a coordinate outside the grid does (00_scope.md R17, 60_exceptions.md R193). -/
inductive OffGrid where
  /-- Reads 0, ignores writes. -/
  | clip
  /-- Is the cell `(x mod FB_W, y mod FB_H)`. -/
  | wrap
  /-- Makes Draw raise FbBounds before it touches any cell. -/
  | fault
deriving DecidableEq, Repr

/-- The parameters the environment fixes (R15 to R18). -/
structure Config where
  /-- `FB_W` (R16). -/
  fbW : Nat
  /-- `FB_H` (R16). -/
  fbH : Nat
  /-- `FB_OFFSCREEN` (R17). -/
  offGrid : OffGrid
  /-- `FB_INIT` (R18), as the list of the cells that hold 1, in `Pixel.before` order. -/
  fbInit : List Pixel
  /-- `FONT` (R15), glyph k at bytes `5k .. 5k+4`. -/
  font : Vector Byte 80
deriving DecidableEq, Repr

/-- FREE VALUE: the answer to the n-th `RandByte()` when none is queued (60_exceptions.md R187, log 5). -/
opaque Config.freeRandByte : Nat → Byte

/-- FREE VALUE: the answer to the n-th `KeyPeek()` when none is queued (60_exceptions.md R185, log 6). -/
opaque Config.freeKeyPeek : Nat → Option Key

/-- FREE VALUE: the answer to the n-th poll of `KeyWait()` when none is queued; `none` says that no key has come
yet (60_exceptions.md R186, log 7). -/
opaque Config.freeKeyWait : Nat → Option Key

end Sys2Proof
end

