-- ==== Sys2Proof/Syntax.lean ====
section
/-! DEFINITION. The instructions: one constructor per row of opcode_table.json (30_encoding.md R80 to R113).
Operands have exactly the widths of their fields (R69, R77). -/

namespace Sys2Proof

/-- An instruction of the core. A docstring gives the pattern and the rule of the encoding. -/
inductive Instr where
  /-- `00E0` ClearScreen (R80). -/
  | clearScreen
  /-- `00EE` Return (R81). -/
  | ret
  /-- `1NNN` Goto (R82). -/
  | goto (nnn : Addr12)
  /-- `2NNN` Call (R83). -/
  | call (nnn : Addr12)
  /-- `3XKK` SkipEqConst (R84). -/
  | skipEqConst (x : RegIdx) (kk : Byte)
  /-- `4XKK` SkipNeqConst (R85). -/
  | skipNeqConst (x : RegIdx) (kk : Byte)
  /-- `5XY0` SkipEqReg (R86). -/
  | skipEqReg (x y : RegIdx)
  /-- `6XKK` SetConst (R87). -/
  | setConst (x : RegIdx) (kk : Byte)
  /-- `7XKK` AddConst (R88). -/
  | addConst (x : RegIdx) (kk : Byte)
  /-- `8XY0` SetReg (R89). -/
  | setReg (x y : RegIdx)
  /-- `8XY1` Or (R90). -/
  | orReg (x y : RegIdx)
  /-- `8XY2` And (R91). -/
  | andReg (x y : RegIdx)
  /-- `8XY3` Xor (R92). -/
  | xorReg (x y : RegIdx)
  /-- `8XY4` AddReg (R93). -/
  | addReg (x y : RegIdx)
  /-- `8XY5` SubReg (R94). -/
  | subReg (x y : RegIdx)
  /-- `8XY6` ShiftRight (R95); the `y` field is decoded and ignored. -/
  | shiftRight (x y : RegIdx)
  /-- `8XY7` SubRegRev (R96). -/
  | subRegRev (x y : RegIdx)
  /-- `8XYE` ShiftLeft (R97); the `y` field is decoded and ignored. -/
  | shiftLeft (x y : RegIdx)
  /-- `9XY0` SkipNeqReg (R98). -/
  | skipNeqReg (x y : RegIdx)
  /-- `ANNN` SetI (R99). -/
  | setI (nnn : Addr12)
  /-- `BNNN` JumpV0 (R100). -/
  | jumpV0 (nnn : Addr12)
  /-- `CXKK` Rand (R101); `kk` is the mask. -/
  | rand (x : RegIdx) (kk : Byte)
  /-- `DXYN` Draw (R102); `n` is the row count. -/
  | draw (x y : RegIdx) (n : Nibble)
  /-- `EX9E` SkipKeyPressed (R103). -/
  | skipKeyPressed (x : RegIdx)
  /-- `EXA1` SkipKeyNotPressed (R104). -/
  | skipKeyNotPressed (x : RegIdx)
  /-- `FX07` SetRegFromDelay (R105). -/
  | setRegFromDelay (x : RegIdx)
  /-- `FX0A` WaitKey (R106). -/
  | waitKey (x : RegIdx)
  /-- `FX15` SetDelay (R107). -/
  | setDelay (x : RegIdx)
  /-- `FX18` SetSound (R108). -/
  | setSound (x : RegIdx)
  /-- `FX1E` AddToI (R109). -/
  | addToI (x : RegIdx)
  /-- `FX29` SetIToFontAddr (R110). -/
  | setIToFontAddr (x : RegIdx)
  /-- `FX33` StoreBCD (R111). -/
  | storeBCD (x : RegIdx)
  /-- `FX55` RegDump (R112). -/
  | regDump (x : RegIdx)
  /-- `FX65` RegLoad (R113). -/
  | regLoad (x : RegIdx)
deriving DecidableEq, Repr

end Sys2Proof
end

