-- ==== Sys2Proof/WellFormed.lean ====
section
/-! DEFINITION. Well-formedness of instructions and of the parameters.
An operand has exactly its field's width by its type, so no instruction is ill-formed: the check says so in numbers and
never refuses. The checks that can refuse are those of `Config`. -/

namespace Sys2Proof

/-- The operands of an instruction, each as its value and the width of its field (30_encoding.md R69, R77). -/
def Instr.operands : Instr → List (Nat × Nat)
  | .clearScreen | .ret => []
  | .goto a | .call a | .setI a | .jumpV0 a => [(a.toNat, 12)]
  | .skipEqConst x k | .skipNeqConst x k | .setConst x k | .addConst x k | .rand x k => [(x.toNat, 4), (k.toNat, 8)]
  | .skipEqReg x y | .setReg x y | .orReg x y | .andReg x y | .xorReg x y | .addReg x y | .subReg x y
  | .shiftRight x y | .subRegRev x y | .shiftLeft x y | .skipNeqReg x y => [(x.toNat, 4), (y.toNat, 4)]
  | .draw x y n => [(x.toNat, 4), (y.toNat, 4), (n.toNat, 4)]
  | .skipKeyPressed x | .skipKeyNotPressed x | .setRegFromDelay x | .waitKey x | .setDelay x | .setSound x
  | .addToI x | .setIToFontAddr x | .storeBCD x | .regDump x | .regLoad x => [(x.toNat, 4)]

/-- Every operand fits its field. -/
def Instr.wellFormed (i : Instr) : Bool := i.operands.all fun (value, width) => decide (value < 2 ^ width)

/-- A cell of the grid `FB_W × FB_H` (60_exceptions.md R189). -/
abbrev Config.onGrid (c : Config) (x y : Nat) : Prop := x < c.fbW ∧ y < c.fbH

/-- The screen has at least one column (00_scope.md R16). -/
abbrev Config.hasColumns (c : Config) : Prop := 0 < c.fbW

/-- The screen has at least one row (00_scope.md R16). -/
abbrev Config.hasRows (c : Config) : Prop := 0 < c.fbH

/-- A list of lit cells is in its one canonical form: written out in order, without repeats, all on the grid (log 12). -/
abbrev Config.canonicalCells (c : Config) (cells : List Pixel) : Prop :=
  cells.Pairwise Pixel.before ∧ ∀ p ∈ cells, c.onGrid p.x p.y

/-- The parameters are usable: a grid of at least one cell and an `FB_INIT` in canonical form (R16, R18). -/
abbrev Config.wellFormed (c : Config) : Prop := c.hasColumns ∧ c.hasRows ∧ c.canonicalCells c.fbInit

end Sys2Proof
end

