-- ==== Sys2Proof/Decode.lean ====
section
/-! DEFINITION. The bit-field extractor, the decoder and the encoder (30_encoding.md R68 to R117).
The nibble values other than those of `8XY4` and `3XKK` are PRESUMED: the spec marks them as general knowledge (log 14). -/

namespace Sys2Proof

/-- `word = (hi << 8) | lo` (R68, 20_memory.md R52). -/
def wordOfBytes (hi lo : Byte) : Word := hi.setWidth 16 <<< 8 ||| lo.setWidth 16

/-- The byte at the lower address, the high byte of the word (20_memory.md R52). -/
def highByte (w : Word) : Byte := w.extractLsb' 8 8

/-- The byte at the higher address. -/
def lowByte (w : Word) : Byte := w.extractLsb' 0 8

/-! The extractor of R69. -/

/-- `op = word[15:12]`. -/
def fieldOp (w : Word) : Nibble := w.extractLsb' 12 4
/-- `x = word[11:8]`. -/
def fieldX (w : Word) : RegIdx := w.extractLsb' 8 4
/-- `y = word[7:4]`. -/
def fieldY (w : Word) : RegIdx := w.extractLsb' 4 4
/-- `n = word[3:0]`. -/
def fieldN (w : Word) : Nibble := w.extractLsb' 0 4
/-- `kk = word[7:0]`. -/
def fieldKk (w : Word) : Byte := w.extractLsb' 0 8
/-- `nnn = word[11:0]`. -/
def fieldNnn (w : Word) : Addr12 := w.extractLsb' 0 12

/-- What decoding answers: an instruction, or the DecodeError of R78, which keeps the illegal word. -/
inductive Decoded where
  | instr (i : Instr)
  | illegal (w : Word)
deriving DecidableEq, Repr

/-- The family `8XY_`, chosen by the last nibble: nine variants (R74, R89 to R97); the other seven values are illegal (R115). -/
def decodeAlu (w : Word) (x y : RegIdx) : Decoded :=
  match (fieldN w).toNat with
  | 0x0 => .instr (.setReg x y)
  | 0x1 => .instr (.orReg x y)
  | 0x2 => .instr (.andReg x y)
  | 0x3 => .instr (.xorReg x y)
  | 0x4 => .instr (.addReg x y)
  | 0x5 => .instr (.subReg x y)
  | 0x6 => .instr (.shiftRight x y)
  | 0x7 => .instr (.subRegRev x y)
  | 0xE => .instr (.shiftLeft x y)
  | _ => .illegal w

/-- The family `EX__`, chosen by the low byte (R103, R104, R115). -/
def decodeKey (w : Word) (x : RegIdx) : Decoded :=
  match (fieldKk w).toNat with
  | 0x9E => .instr (.skipKeyPressed x)
  | 0xA1 => .instr (.skipKeyNotPressed x)
  | _ => .illegal w

/-- The family `FX__`, chosen by the low byte (R105 to R113, R115). -/
def decodeMisc (w : Word) (x : RegIdx) : Decoded :=
  match (fieldKk w).toNat with
  | 0x07 => .instr (.setRegFromDelay x)
  | 0x0A => .instr (.waitKey x)
  | 0x15 => .instr (.setDelay x)
  | 0x18 => .instr (.setSound x)
  | 0x1E => .instr (.addToI x)
  | 0x29 => .instr (.setIToFontAddr x)
  | 0x33 => .instr (.storeBCD x)
  | 0x55 => .instr (.regDump x)
  | 0x65 => .instr (.regLoad x)
  | _ => .illegal w

/-- The family `0NNN`: `00E0` and `00EE`; every other word of it is illegal (R80, R81, R114). -/
def decodeSystem (w : Word) : Decoded :=
  match (fieldNnn w).toNat with
  | 0x0E0 => .instr .clearScreen
  | 0x0EE => .instr .ret
  | _ => .illegal w

/-- A family whose last nibble must be 0: `5XY0` and `9XY0` (R86, R98, R115). -/
def decodeSkipReg (w : Word) (i : Instr) : Decoded :=
  if fieldN w = 0 then .instr i else .illegal w

/-- The decoder on a word: dispatch on the nibbles, most significant first (R78). Total on all 65536 words. -/
def decodeWord (w : Word) : Decoded :=
  match (fieldOp w).toNat with
  | 0x0 => decodeSystem w
  | 0x1 => .instr (.goto (fieldNnn w))
  | 0x2 => .instr (.call (fieldNnn w))
  | 0x3 => .instr (.skipEqConst (fieldX w) (fieldKk w))
  | 0x4 => .instr (.skipNeqConst (fieldX w) (fieldKk w))
  | 0x5 => decodeSkipReg w (.skipEqReg (fieldX w) (fieldY w))
  | 0x6 => .instr (.setConst (fieldX w) (fieldKk w))
  | 0x7 => .instr (.addConst (fieldX w) (fieldKk w))
  | 0x8 => decodeAlu w (fieldX w) (fieldY w)
  | 0x9 => decodeSkipReg w (.skipNeqReg (fieldX w) (fieldY w))
  | 0xA => .instr (.setI (fieldNnn w))
  | 0xB => .instr (.jumpV0 (fieldNnn w))
  | 0xC => .instr (.rand (fieldX w) (fieldKk w))
  | 0xD => .instr (.draw (fieldX w) (fieldY w) (fieldN w))
  | 0xE => decodeKey w (fieldX w)
  | _ => decodeMisc w (fieldX w)

/-- `Decode(hi, lo)` of R78. -/
def decode (hi lo : Byte) : Decoded := decodeWord (wordOfBytes hi lo)

/-! The encoder, format by format (R71 to R76). -/

/-- Format NNN (R72). -/
def packNnn (op : Nibble) (nnn : Addr12) : Word := op.setWidth 16 <<< 12 ||| nnn.setWidth 16

/-- Formats XKK and XSS (R73, R76). -/
def packXkk (op : Nibble) (x : RegIdx) (kk : Byte) : Word :=
  op.setWidth 16 <<< 12 ||| x.setWidth 16 <<< 8 ||| kk.setWidth 16

/-- Formats XYS and XYN (R74, R75). -/
def packXyn (op : Nibble) (x y : RegIdx) (n : Nibble) : Word :=
  op.setWidth 16 <<< 12 ||| x.setWidth 16 <<< 8 ||| y.setWidth 16 <<< 4 ||| n.setWidth 16

/-- The word of an instruction, written from the patterns of R80 to R113. -/
def encode : Instr → Word
  | .clearScreen => 0x00E0
  | .ret => 0x00EE
  | .goto nnn => packNnn 0x1 nnn
  | .call nnn => packNnn 0x2 nnn
  | .skipEqConst x kk => packXkk 0x3 x kk
  | .skipNeqConst x kk => packXkk 0x4 x kk
  | .skipEqReg x y => packXyn 0x5 x y 0x0
  | .setConst x kk => packXkk 0x6 x kk
  | .addConst x kk => packXkk 0x7 x kk
  | .setReg x y => packXyn 0x8 x y 0x0
  | .orReg x y => packXyn 0x8 x y 0x1
  | .andReg x y => packXyn 0x8 x y 0x2
  | .xorReg x y => packXyn 0x8 x y 0x3
  | .addReg x y => packXyn 0x8 x y 0x4
  | .subReg x y => packXyn 0x8 x y 0x5
  | .shiftRight x y => packXyn 0x8 x y 0x6
  | .subRegRev x y => packXyn 0x8 x y 0x7
  | .shiftLeft x y => packXyn 0x8 x y 0xE
  | .skipNeqReg x y => packXyn 0x9 x y 0x0
  | .setI nnn => packNnn 0xA nnn
  | .jumpV0 nnn => packNnn 0xB nnn
  | .rand x kk => packXkk 0xC x kk
  | .draw x y n => packXyn 0xD x y n
  | .skipKeyPressed x => packXkk 0xE x 0x9E
  | .skipKeyNotPressed x => packXkk 0xE x 0xA1
  | .setRegFromDelay x => packXkk 0xF x 0x07
  | .waitKey x => packXkk 0xF x 0x0A
  | .setDelay x => packXkk 0xF x 0x15
  | .setSound x => packXkk 0xF x 0x18
  | .addToI x => packXkk 0xF x 0x1E
  | .setIToFontAddr x => packXkk 0xF x 0x29
  | .storeBCD x => packXkk 0xF x 0x33
  | .regDump x => packXkk 0xF x 0x55
  | .regLoad x => packXkk 0xF x 0x65

/-- The `(match, mask)` pair of an instruction's row (R78, R80 to R113, section 8). -/
def Instr.pattern : Instr → Word × Word
  | .clearScreen => (0x00E0, 0xFFFF)
  | .ret => (0x00EE, 0xFFFF)
  | .goto _ => (0x1000, 0xF000)
  | .call _ => (0x2000, 0xF000)
  | .skipEqConst _ _ => (0x3000, 0xF000)
  | .skipNeqConst _ _ => (0x4000, 0xF000)
  | .skipEqReg _ _ => (0x5000, 0xF00F)
  | .setConst _ _ => (0x6000, 0xF000)
  | .addConst _ _ => (0x7000, 0xF000)
  | .setReg _ _ => (0x8000, 0xF00F)
  | .orReg _ _ => (0x8001, 0xF00F)
  | .andReg _ _ => (0x8002, 0xF00F)
  | .xorReg _ _ => (0x8003, 0xF00F)
  | .addReg _ _ => (0x8004, 0xF00F)
  | .subReg _ _ => (0x8005, 0xF00F)
  | .shiftRight _ _ => (0x8006, 0xF00F)
  | .subRegRev _ _ => (0x8007, 0xF00F)
  | .shiftLeft _ _ => (0x800E, 0xF00F)
  | .skipNeqReg _ _ => (0x9000, 0xF00F)
  | .setI _ => (0xA000, 0xF000)
  | .jumpV0 _ => (0xB000, 0xF000)
  | .rand _ _ => (0xC000, 0xF000)
  | .draw _ _ _ => (0xD000, 0xF000)
  | .skipKeyPressed _ => (0xE09E, 0xF0FF)
  | .skipKeyNotPressed _ => (0xE0A1, 0xF0FF)
  | .setRegFromDelay _ => (0xF007, 0xF0FF)
  | .waitKey _ => (0xF00A, 0xF0FF)
  | .setDelay _ => (0xF015, 0xF0FF)
  | .setSound _ => (0xF018, 0xF0FF)
  | .addToI _ => (0xF01E, 0xF0FF)
  | .setIToFontAddr _ => (0xF029, 0xF0FF)
  | .storeBCD _ => (0xF033, 0xF0FF)
  | .regDump _ => (0xF055, 0xF0FF)
  | .regLoad _ => (0xF065, 0xF0FF)

/-- The patterns of the opcode table, in its order (30_encoding.md section 8, opcode_table.json). -/
def opcodeTable : List (Word × Word) :=
  [(0x00E0, 0xFFFF), (0x00EE, 0xFFFF), (0x1000, 0xF000), (0x2000, 0xF000), (0x3000, 0xF000), (0x4000, 0xF000),
   (0x5000, 0xF00F), (0x6000, 0xF000), (0x7000, 0xF000), (0x8000, 0xF00F), (0x8001, 0xF00F), (0x8002, 0xF00F),
   (0x8003, 0xF00F), (0x8004, 0xF00F), (0x8005, 0xF00F), (0x8006, 0xF00F), (0x8007, 0xF00F), (0x800E, 0xF00F)] ++
  [(0x9000, 0xF00F), (0xA000, 0xF000), (0xB000, 0xF000), (0xC000, 0xF000), (0xD000, 0xF000), (0xE09E, 0xF0FF),
   (0xE0A1, 0xF0FF), (0xF007, 0xF0FF), (0xF00A, 0xF0FF), (0xF015, 0xF0FF), (0xF018, 0xF0FF), (0xF01E, 0xF0FF),
   (0xF029, 0xF0FF), (0xF033, 0xF0FF), (0xF055, 0xF0FF), (0xF065, 0xF0FF)]

/-- The instruction the decoder reads from a word whose bits are numbered as opcode_table.json numbers them: the word is
laid out high byte first, as the hardware stores it, and given to `decode`. -/
def decodeTableWord (nbits w : Nat) : Option Instr :=
  let word : Word := BitVec.ofNat 16 (w % 2 ^ nbits)
  match decode (highByte word) (lowByte word) with
  | .instr i => some i
  | .illegal _ => none

end Sys2Proof
end

