-- ==== Sys2Proof/Machine/Defaults.lean ====
section
/-! DEFINITION. The default values of the parameters (20_memory.md R58, 95_test_vectors.md). -/

namespace Sys2Proof

/-- The default `FONT` of 20_memory.md R58. PRESUMED: the spec marks these bytes as general knowledge (log 4). -/
def Config.standardFont : Vector Byte 80 :=
  #v[0xF0, 0x90, 0x90, 0x90, 0xF0, 0x20, 0x60, 0x20, 0x20, 0x70,
     0xF0, 0x10, 0xF0, 0x80, 0xF0, 0xF0, 0x10, 0xF0, 0x10, 0xF0,
     0x90, 0x90, 0xF0, 0x10, 0x10, 0xF0, 0x80, 0xF0, 0x10, 0xF0,
     0xF0, 0x80, 0xF0, 0x90, 0xF0, 0xF0, 0x10, 0x20, 0x40, 0x40,
     0xF0, 0x90, 0xF0, 0x90, 0xF0, 0xF0, 0x90, 0xF0, 0x10, 0xF0,
     0xF0, 0x90, 0xF0, 0x90, 0x90, 0xE0, 0x90, 0xE0, 0x90, 0xE0,
     0xF0, 0x80, 0x80, 0x80, 0xF0, 0xE0, 0x90, 0x90, 0x90, 0xE0,
     0xF0, 0x80, 0xF0, 0x80, 0xF0, 0xF0, 0x80, 0xF0, 0x80, 0x80]

/-- The defaults of 95_test_vectors.md: 64 × 32, every cell 0, `clip`, the default font.
DESIGN CHOICE: `clip` for the OPEN parameter `FB_OFFSCREEN` (log 2); the other values are the spec's defaults (log 3, log 4). -/
def Config.standard : Config :=
  { fbW := 64, fbH := 32, offGrid := .clip, fbInit := [], font := Config.standardFont }

end Sys2Proof
end

