-- ==== Sys2Proof/Machine/State.lean ====
section
/-! DEFINITION. The state of the core (10_state.md), the ways a step can stop, and reset (70_reset_and_hazards.md R200). -/

namespace Sys2Proof.Machine

/-- Why the core halted, with the information recorded (60_exceptions.md R174). -/
inductive Cause where
  /-- Code 1: the fetched word matches no pattern. -/
  | decodeError (word : Word)
  /-- Code 2: `PC + 1 >= MEM_SIZE` at fetch. -/
  | fetchBounds (pc : Addr)
  /-- Code 3: a data address `>= MEM_SIZE`, the first one; computed without truncation (20_memory.md R49). -/
  | memBounds (addr : Nat)
  /-- Code 4: Call with `SP = 256`. -/
  | stackOverflow
  /-- Code 5: Return with `SP = 0`. -/
  | stackUnderflow
  /-- Code 6: Draw touches a cell outside the grid while `FB_OFFSCREEN = fault`, the first such cell. -/
  | fbBounds (x y : Nat)
deriving DecidableEq, Repr

/-- The record `fault(code, pc, info)` that `HALT` holds (10_state.md R44). -/
structure HaltRecord where
  cause : Cause
  /-- The address of the faulting instruction, `pc_i`. -/
  pc : Addr
deriving DecidableEq, Repr

/-- Whether the host may still call `load` (20_memory.md R61). A field of the MODEL's own (log 10). -/
inductive Phase where
  | created
  | loaded
  | running
deriving DecidableEq, Repr

/-- The answers of one collaborator operation: those the environment has queued, oldest first, and how many were drawn so
far. A field of the MODEL's own (log 8). When nothing is queued an answer is a free value of Config. -/
structure Feed (α : Type) where
  queued : List α
  drawn : Nat
deriving DecidableEq, Repr

/-- The state of the core and of its core-local framebuffer (10_state.md section 10). -/
structure State where
  /-- `V0..VF` (R26); `VF` is index 15 (R27). -/
  v : Vector Byte 16
  /-- `I` (R38). -/
  i : Addr
  /-- `PC` (R31). -/
  pc : Addr
  /-- `STACK[0..256)` (R39). -/
  stack : Vector Addr 256
  /-- `SP`, the number of entries in use, 0 to 256 (R39). -/
  sp : Fin 257
  /-- `DT` (R42). -/
  dt : Byte
  /-- `ST` (R42). -/
  st : Byte
  /-- `HALT` (R44). -/
  halt : Option HaltRecord
  /-- `WAIT(x)`: the register a suspended WaitKey will write (R45). -/
  wait : Option RegIdx
  /-- Memory (20_memory.md R47): the bytes that differ from their reset content, by rising address (log 28). -/
  mem : List Host.Cell
  /-- The framebuffer (60_exceptions.md R188): the cells that hold 1, in `Pixel.before` order (log 12). -/
  fb : List Pixel
  /-- The parameters (00_scope.md R15 to R18); no step changes them (log 1). -/
  cfg : Config
  /-- Answers to `KeyPeek()` (60_exceptions.md R185). -/
  peeks : Feed (Option Key)
  /-- Answers to the polls of `KeyWait()`; `none` says that no key has come yet (R186). -/
  waits : Feed (Option Key)
  /-- Answers to `RandByte()` (R187). -/
  rands : Feed Byte
  /-- What the host has done so far (20_memory.md R61). -/
  phase : Phase
deriving DecidableEq, Repr

/-- Why a step stops outside the state. Empty: every fault of the spec is a next state that records it in `HALT`
(60_exceptions.md R177), so nobody raises one, and a step never ends here; safe (log 9). -/
inductive Fault where
deriving DecidableEq, Repr

/-- Why the model refuses. -/
inductive Refusal where
  /-- Raised by `exec` for an instruction without a meaning, of which there is none; safe. -/
  | notModelled (mnemonic : String)
  /-- Raised by `load` after the first `step` or a second time (20_memory.md R61, 93_implementation_defined.md X13); safe:
  no instruction and no step raises it (log 10). -/
  | loadNotAllowed
deriving DecidableEq, Repr

/-- What a feed holds at reset: nothing queued, nothing drawn. DESIGN CHOICE (log 8); no statement rests on it. -/
def Feed.fresh {α : Type} : Feed α := { queued := [], drawn := 0 }

/-- The machine after reset, for the parameters `c` (70_reset_and_hazards.md R200). Memory lists nothing, since every byte
reads as its reset content (20_memory.md R59). -/
def State.resetWith (c : Config) : State :=
  { v := Vector.replicate 16 0
    i := 0
    pc := 0x200
    stack := Vector.replicate 256 0
    sp := 0
    dt := 0
    st := 0
    halt := none
    wait := none
    mem := []
    fb := c.fbInit
    cfg := c
    peeks := Feed.fresh
    waits := Feed.fresh
    rands := Feed.fresh
    phase := .created }

/-- The machine after reset, for the spec's default parameters (log 1 to 4). -/
def State.reset : State := State.resetWith Config.standard

end Sys2Proof.Machine
end

