-- ==== Sys2Proof/Machine/Framebuffer.lean ====
section
/-! DEFINITION. The framebuffer device and its operations (60_exceptions.md R188 to R194). -/

namespace Sys2Proof.Machine

/-- The cell a coordinate stands for (R189, R190, R193): itself on the grid; off the grid none under `clip`, the cell modulo
the size under `wrap`. Under `fault` Draw never gets to an off-grid cell, so none (log 12). -/
def resolveCell (c : Config) (x y : Nat) : Option Pixel :=
  if c.onGrid x y then some ⟨x, y⟩
  else if c.offGrid = .wrap ∧ 0 < c.fbW ∧ 0 < c.fbH then some ⟨x % c.fbW, y % c.fbH⟩
  else none

/-- Lights a cell, at its place in the order. -/
def lightCell (fb : List Pixel) (p : Pixel) : List Pixel :=
  match fb with
  | [] => [p]
  | q :: rest =>
    if p.before q then p :: q :: rest
    else if p = q then q :: rest
    else q :: lightCell rest p

/-- Makes a cell hold 0. -/
def darkenCell (fb : List Pixel) (p : Pixel) : List Pixel := fb.filter fun q => decide (q ≠ p)

/-- `FbGet(x, y)` (R189, R193): an unresolved cell reads 0. -/
def fbGet (c : Config) (fb : List Pixel) (x y : Nat) : Bool :=
  match resolveCell c x y with
  | some p => decide (p ∈ fb)
  | none => false

/-- `FbSet(x, y, b)` (R190, R193): an unresolved cell ignores the write. -/
def fbSet (c : Config) (fb : List Pixel) (x y : Nat) (b : Bool) : List Pixel :=
  match resolveCell c x y with
  | some p => if b then lightCell fb p else darkenCell fb p
  | none => fb

/-- `FbClear()` (R191): every cell holds 0. -/
def fbClear : List Pixel := []

/-- One visit of Draw: a coordinate as computed (43_display.md R161) and the sprite bit for it. -/
structure Visit where
  x : Nat
  y : Nat
  bit : Bool
deriving DecidableEq, Repr

/-- Draw's read, XOR, write and compare on the visited cells in order, with the collision flag so far (R162, R163, R165). -/
def blit (c : Config) (visits : List Visit) (fb : List Pixel) (collided : Bool) : List Pixel × Bool :=
  match visits with
  | [] => (fb, collided)
  | v :: rest =>
    let old := fbGet c fb v.x v.y
    let new := old ^^ v.bit
    blit c rest (fbSet c fb v.x v.y new) (collided || (old && !new))

/-- The first visited coordinate outside the grid, asked for only under `FB_OFFSCREEN = fault` (R165, R180, R193). -/
def firstOffGrid (c : Config) (visits : List Visit) : Option Visit :=
  if c.offGrid = .fault then visits.find? fun v => !decide (c.onGrid v.x v.y) else none

end Sys2Proof.Machine
end

