-- ==== Sys2Proof/Machine/Memory.lean ====
section
/-! DEFINITION. The memory array (20_memory.md R47 to R59) as a list of the bytes that differ from their reset content. -/

namespace Sys2Proof.Machine

/-- What an address reads as while nothing is listed for it: its content after reset, `FONT[a]` for a in 0x000..0x04F and
0 for every other address (R59). -/
def resetByte (c : Config) (a : Nat) : Byte := if h : a < fontSize then c.font[a]'h else 0

/-- The byte listed for an address, if there is one. -/
def listedByte (m : List Host.Cell) (a : Nat) : Option Byte :=
  match m with
  | [] => none
  | (k, b) :: rest => if k = a then some b else listedByte rest a

/-- The byte at an address (R49, inside memory). -/
def readCell (c : Config) (m : List Host.Cell) (a : Nat) : Byte := (listedByte m a).getD (resetByte c a)

/-- Lists a byte at its place in the rising order, in the place of an older one. -/
def insertCell (m : List Host.Cell) (a : Nat) (b : Byte) : List Host.Cell :=
  match m with
  | [] => [(a, b)]
  | (k, old) :: rest =>
    if a < k then (a, b) :: (k, old) :: rest
    else if a = k then (a, b) :: rest
    else (k, old) :: insertCell rest a b

/-- Lists nothing for an address. -/
def eraseCell (m : List Host.Cell) (a : Nat) : List Host.Cell := m.filter fun cell => cell.1 != a

/-- `MemWrite(a, 1, b)` inside memory (R50): a byte equal to the reset content is not listed. -/
def writeCell (c : Config) (m : List Host.Cell) (a : Nat) (b : Byte) : List Host.Cell :=
  if b = resetByte c a then eraseCell m a else insertCell m a b

/-- Memory is in its one canonical form: addresses rise, lie inside memory, and nothing listed equals the reset content. -/
abbrev Memory.wf (c : Config) (m : List Host.Cell) : Prop :=
  m.Pairwise (fun p q => p.1 < q.1) ∧ ∀ cell ∈ m, cell.1 < memSize ∧ cell.2 ≠ resetByte c cell.1

/-- The byte of a state's memory at an address. -/
def memByte (s : State) (a : Nat) : Byte := readCell s.cfg s.mem a

/-- Writes one byte of a state's memory. -/
def storeByte (s : State) (a : Nat) (b : Byte) : State := { s with mem := writeCell s.cfg s.mem a b }

/-- Writes bytes at consecutive addresses from `a`, the first byte first. -/
def storeBytes (s : State) (a : Nat) : List Byte → State
  | [] => s
  | b :: rest => storeBytes (storeByte s a b) (a + 1) rest

end Sys2Proof.Machine
end

