-- ==== Sys2Proof/Machine/Ops.lean ====
section
/-! DEFINITION. The shared operations over registers, stack, timers, collaborators and faults. -/

namespace Sys2Proof.Machine

/-! Registers. -/

/-- The index of `VF` (10_state.md R27). -/
abbrev vf : RegIdx := 15

/-- `V[x]`. -/
def readV (s : State) (x : RegIdx) : Byte := s.v[x.toNat]'x.isLt

/-- `V[x] <- b`. No register is hardwired (10_state.md R26). -/
def writeV (s : State) (x : RegIdx) (b : Byte) : State := { s with v := s.v.set x.toNat b x.isLt }

/-- Writes the result to `V[x]` and then the flag to `VF`, the final write (10_state.md R28, 41_alu.md R132). -/
def writeResultThenFlag (s : State) (x : RegIdx) (result flag : Byte) : State := writeV (writeV s x result) vf flag

/-! Faults (60_exceptions.md R177): the ONE operation that takes a fault. There is no return from one (R179). -/

/-- The code of a fault (60_exceptions.md R174). -/
def Cause.code : Cause → Nat
  | .decodeError _ => 1
  | .fetchBounds _ => 2
  | .memBounds _ => 3
  | .stackOverflow => 4
  | .stackUnderflow => 5
  | .fbBounds _ _ => 6

/-- `raise F(info)` for the instruction at `pcI`: `PC <- pc_i` and `HALT <- fault(code, pc_i, info)`, all else kept. -/
def raise (s : State) (pcI : Addr) (cause : Cause) : State :=
  { s with pc := pcI, halt := some { cause := cause, pc := pcI } }

/-- `pc_i` while an instruction executes, when `PC` holds `pc_i + 2` (10_state.md R32, log 29). -/
def instrAddr (s : State) : Addr := s.pc - 2

/-- An executing instruction raises its own fault; its checks come before its writes, so `s` is unwritten. -/
def raiseOwn (s : State) (cause : Cause) : Host.Outcome State Fault Refusal := .next (raise s (instrAddr s) cause)

/-! The program counter. -/

/-- `PC <- (PC + 2) mod 2^16` (10_state.md R32). -/
def advance (s : State) : State := { s with pc := s.pc + 2 }

/-- `PC <- target`. -/
def jumpTo (s : State) (target : Addr) : State := { s with pc := target }

/-- A skip: 2 more on the advanced `PC` if the condition holds (40_control_flow.md R120). -/
def skipIf (s : State) (cond : Bool) : State := if cond then { s with pc := s.pc + 2 } else s

/-! The call stack. -/

/-- `Push(a)`; none when the stack is full (10_state.md R40). -/
def push (s : State) (a : Addr) : Option State :=
  if h : s.sp.val < stackDepth then
    some { s with stack := s.stack.set s.sp.val a h, sp := ⟨s.sp.val + 1, Nat.succ_lt_succ h⟩ }
  else none

/-- `Pop()`; none when the stack is empty. The popped entry keeps its value (10_state.md R41). -/
def pop (s : State) : Option (Addr × State) :=
  match s.sp with
  | ⟨0, _⟩ => none
  | ⟨k + 1, h⟩ => some (s.stack[k]'(Nat.lt_of_succ_lt_succ h), { s with sp := ⟨k, Nat.lt_of_succ_lt h⟩ })

/-! Timers. -/

/-- One decrement, never below 0 (60_exceptions.md R183). -/
def countDown (t : Byte) : Byte := if 0 < t.toNat then t - 1 else t

/-- The timer tick of stage 2 (60_exceptions.md R183). -/
def tick (s : State) : State := { s with dt := countDown s.dt, st := countDown s.st }

/-- The step has begun: no `load` any more (20_memory.md R61), and the timers tick once (10_state.md R34, R35). -/
def beginStep (s : State) : State := tick { s with phase := .running }

/-! Fetch. -/

/-- The two bytes at `PC` and `PC + 1`, the first the high byte; none when the second lies outside memory (20_memory.md R51). -/
def fetchBytes (s : State) : Option (Byte × Byte) :=
  if memSize ≤ s.pc.toNat + 1 then none else some (memByte s s.pc.toNat, memByte s (s.pc.toNat + 1))

/-! The collaborators. -/

/-- Draws one answer: the oldest queued one, or the free value for the number drawn so far. -/
def Feed.draw {α : Type} (free : Nat → α) (f : Feed α) : α × Feed α :=
  match f.queued with
  | [] => (free f.drawn, { queued := [], drawn := f.drawn + 1 })
  | a :: rest => (a, { queued := rest, drawn := f.drawn + 1 })

/-- `RandByte()` (60_exceptions.md R187): any byte (log 5). -/
def randByte (s : State) : Byte × State :=
  let (b, f) := s.rands.draw Config.freeRandByte
  (b, { s with rands := f })

/-- `KeyPeek()` (60_exceptions.md R185): no key or any key code (log 6). -/
def keyPeek (s : State) : Option Key × State :=
  let (k, f) := s.peeks.draw Config.freeKeyPeek
  (k, { s with peeks := f })

/-- One poll of `KeyWait()` (60_exceptions.md R186): a key code, or none as long as no key has come (log 7). -/
def keyWaitPoll (s : State) : Option Key × State :=
  let (k, f) := s.waits.draw Config.freeKeyWait
  (k, { s with waits := f })

/-- A WaitKey in `WAIT(x)` polls once: a key goes to `V[x]`, zero-extended, and ends the wait; without a key the core stays in
`WAIT(x)` and nothing else of it changes (10_state.md R45, 44_input_timers.md R170). -/
def pollWait (s : State) (x : RegIdx) : State :=
  match keyWaitPoll s with
  | (some c, s') => { writeV s' x (c.setWidth 8) with wait := none }
  | (none, s') => { s' with wait := some x }

end Sys2Proof.Machine
end

