-- ==== Sys2Proof/Machine/Flags.lean ====
section
/-! DEFINITION. The values of the flag in `VF` (10_state.md R37), each 0 or 1, from the operands read before any write. -/

namespace Sys2Proof.Machine

/-- A condition as the byte 1 or 0. -/
def flagOf (cond : Bool) : Byte := if cond then 1 else 0

/-- Carry of AddReg: 1 iff `a + b > 255` (41_alu.md R140). -/
def carryFlag (a b : Byte) : Byte := flagOf (decide (255 < a.toNat + b.toNat))

/-- NOT borrow of `a - b`: 1 iff `a >= b` (41_alu.md R141, R143). -/
def notBorrowFlag (a b : Byte) : Byte := flagOf (decide (b.toNat ≤ a.toNat))

/-- The bit ShiftRight shifts out, `a & 1` (41_alu.md R142). -/
def lowBitFlag (a : Byte) : Byte := a &&& 1

/-- The bit ShiftLeft shifts out, `(a >> 7) & 1` (41_alu.md R144). -/
def highBitFlag (a : Byte) : Byte := (a >>> 7) &&& 1

/-- Collision of Draw: 1 iff some visited cell went from 1 to 0 (43_display.md R163). -/
def collisionFlag (collided : Bool) : Byte := flagOf collided

end Sys2Proof.Machine
end

