-- ==== Sys2Proof/Machine/Operands.lean ====
section
/-! DEFINITION. The operand forms (30_encoding.md R77, 40_control_flow.md R119, 42_memory_index.md R150, R151). -/

namespace Sys2Proof.Machine

/-- An address operand, zero-extended to 16 bits: `zext_16(nnn)` (30_encoding.md R77). -/
def addrOperand (nnn : Addr12) : Addr := nnn.setWidth 16

/-- The target of JumpV0, `zext_16(V[0]) + zext_16(nnn)`; at most 0x10FE, not truncated to 12 bits (40_control_flow.md R129). -/
def jumpV0Target (s : State) (nnn : Addr12) : Addr := (readV s 0).setWidth 16 + addrOperand nnn

/-- The address of glyph `b`, `5 * b`, for all 256 values of `b` (42_memory_index.md R155). -/
def glyphAddr (b : Byte) : Addr := 5 * b.setWidth 16

/-- The effective address `I + k` of the k-th byte an instruction moves, a natural number (42_memory_index.md R150). -/
def dataAddr (s : State) (k : Nat) : Nat := s.i.toNat + k

/-- The check of 42_memory_index.md R151 for m bytes from `I`: the first address outside memory, if there is one. -/
def firstOutOfRange (s : State) (m : Nat) : Option Nat :=
  ((List.range m).map (dataAddr s)).find? fun a => decide (memSize ≤ a)

/-- The bytes of `V0..Vx` inclusive (42_memory_index.md R157). -/
def dumpedBytes (s : State) (x : RegIdx) : List Byte :=
  (List.range (x.toNat + 1)).map fun k => readV s (BitVec.ofNat 4 k)

/-- `for k in 0..x: V[k] <- MemRead(I + k, 1)` (42_memory_index.md R158), as the loads of the first m registers. -/
def loadRegs (s : State) : Nat → State
  | 0 => s
  | k + 1 => writeV (loadRegs s k) (BitVec.ofNat 4 k) (memByte s (dataAddr s k))

/-- The decimal digits of a byte, hundreds first (42_memory_index.md R156). -/
def bcdDigits (b : Byte) : List Byte :=
  [BitVec.ofNat 8 (b.toNat / 100), BitVec.ofNat 8 (b.toNat / 10 % 10), BitVec.ofNat 8 (b.toNat % 10)]

/-- Whether the answered key is the one `V[x]` names: the code, zero-extended, against the whole byte (44_input_timers.md R167). -/
def keyMatches (key : Option Key) (b : Byte) : Bool :=
  match key with
  | some c => decide (c.setWidth 8 = b)
  | none => false

/-- The cells Draw visits and the sprite bit for each: row by row, and in a row from bit 7 (column 0) to bit 0 (column 7)
(43_display.md R161, R162). -/
def spriteVisits (s : State) (x0 y0 n : Nat) : List Visit :=
  (List.range n).flatMap fun row => (List.range 8).map fun col =>
    { x := x0 + col, y := y0 + row, bit := (memByte s (dataAddr s row)).getLsbD (7 - col) }

end Sys2Proof.Machine
end

