-- ==== Sys2Proof/Machine/Alu.lean ====
section
/-! DEFINITION. The register and ALU instructions (41_alu.md). Arithmetic wraps modulo 256 and never faults (R131). -/

namespace Sys2Proof.Machine

/-- SetConst (R134). -/
def execSetConst (x : RegIdx) (kk : Byte) (s : State) : Host.Outcome State Fault Refusal := .next (writeV s x kk)

/-- AddConst (R135): no flag. -/
def execAddConst (x : RegIdx) (kk : Byte) (s : State) : Host.Outcome State Fault Refusal :=
  .next (writeV s x (readV s x + kk))

/-- SetReg (R136). -/
def execSetReg (x y : RegIdx) (s : State) : Host.Outcome State Fault Refusal := .next (writeV s x (readV s y))

/-- Or (R137). -/
def execOrReg (x y : RegIdx) (s : State) : Host.Outcome State Fault Refusal :=
  .next (writeV s x (readV s x ||| readV s y))

/-- And (R138). -/
def execAndReg (x y : RegIdx) (s : State) : Host.Outcome State Fault Refusal :=
  .next (writeV s x (readV s x &&& readV s y))

/-- Xor (R139). -/
def execXorReg (x y : RegIdx) (s : State) : Host.Outcome State Fault Refusal :=
  .next (writeV s x (readV s x ^^^ readV s y))

/-- AddReg (R140). -/
def execAddReg (x y : RegIdx) (s : State) : Host.Outcome State Fault Refusal :=
  let a := readV s x
  let b := readV s y
  .next (writeResultThenFlag s x (a + b) (carryFlag a b))

/-- SubReg (R141). -/
def execSubReg (x y : RegIdx) (s : State) : Host.Outcome State Fault Refusal :=
  let a := readV s x
  let b := readV s y
  .next (writeResultThenFlag s x (a - b) (notBorrowFlag a b))

/-- ShiftRight (R142): shifts `V[x]`; the `y` field is ignored. -/
def execShiftRight (x : RegIdx) (s : State) : Host.Outcome State Fault Refusal :=
  let a := readV s x
  .next (writeResultThenFlag s x (a >>> 1) (lowBitFlag a))

/-- SubRegRev (R143): `Vy - Vx`. -/
def execSubRegRev (x y : RegIdx) (s : State) : Host.Outcome State Fault Refusal :=
  let a := readV s x
  let b := readV s y
  .next (writeResultThenFlag s x (b - a) (notBorrowFlag b a))

/-- ShiftLeft (R144): shifts `V[x]`; the `y` field is ignored. -/
def execShiftLeft (x : RegIdx) (s : State) : Host.Outcome State Fault Refusal :=
  let a := readV s x
  .next (writeResultThenFlag s x (a <<< 1) (highBitFlag a))

/-- Rand (R145): draws one byte, also when the mask is 0. -/
def execRand (x : RegIdx) (kk : Byte) (s : State) : Host.Outcome State Fault Refusal :=
  let (r, s') := randByte s
  .next (writeV s' x (r &&& kk))

end Sys2Proof.Machine
end

