-- ==== Sys2Proof/Machine/ControlFlow.lean ====
section
/-! DEFINITION. Return, Goto, Call, the register skips and JumpV0 (40_control_flow.md). On entry `PC` holds `pc_i + 2`. -/

namespace Sys2Proof.Machine

/-- Return (R122). -/
def execRet (s : State) : Host.Outcome State Fault Refusal :=
  match pop s with
  | none => raiseOwn s .stackUnderflow
  | some (target, s') => .next (jumpTo s' target)

/-- Goto (R123). -/
def execGoto (nnn : Addr12) (s : State) : Host.Outcome State Fault Refusal := .next (jumpTo s (addrOperand nnn))

/-- Call (R124): pushes the advanced `PC`. -/
def execCall (nnn : Addr12) (s : State) : Host.Outcome State Fault Refusal :=
  match push s s.pc with
  | none => raiseOwn s .stackOverflow
  | some s' => .next (jumpTo s' (addrOperand nnn))

/-- SkipEqConst (R125). -/
def execSkipEqConst (x : RegIdx) (kk : Byte) (s : State) : Host.Outcome State Fault Refusal :=
  .next (skipIf s (decide (readV s x = kk)))

/-- SkipNeqConst (R126). -/
def execSkipNeqConst (x : RegIdx) (kk : Byte) (s : State) : Host.Outcome State Fault Refusal :=
  .next (skipIf s (decide (readV s x ≠ kk)))

/-- SkipEqReg (R127). -/
def execSkipEqReg (x y : RegIdx) (s : State) : Host.Outcome State Fault Refusal :=
  .next (skipIf s (decide (readV s x = readV s y)))

/-- SkipNeqReg (R128). -/
def execSkipNeqReg (x y : RegIdx) (s : State) : Host.Outcome State Fault Refusal :=
  .next (skipIf s (decide (readV s x ≠ readV s y)))

/-- JumpV0 (R129). -/
def execJumpV0 (nnn : Addr12) (s : State) : Host.Outcome State Fault Refusal := .next (jumpTo s (jumpV0Target s nnn))

end Sys2Proof.Machine
end

