-- ==== Sys2Proof/Machine/Display.lean ====
section
/-! DEFINITION. ClearScreen and Draw (43_display.md). -/

namespace Sys2Proof.Machine

/-- ClearScreen (R164). -/
def execClearScreen (s : State) : Host.Outcome State Fault Refusal := .next { s with fb := fbClear }

/-- Draw (R165): MemBounds is checked before FbBounds, both before any cell is touched; the collision flag is the final write. -/
def execDraw (x y : RegIdx) (n : Nibble) (s : State) : Host.Outcome State Fault Refusal :=
  match firstOutOfRange s n.toNat with
  | some a => raiseOwn s (.memBounds a)
  | none =>
    let visits := spriteVisits s (readV s x).toNat (readV s y).toNat n.toNat
    match firstOffGrid s.cfg visits with
    | some cell => raiseOwn s (.fbBounds cell.x cell.y)
    | none =>
      let drawn := blit s.cfg visits s.fb false
      .next (writeV { s with fb := drawn.1 } vf (collisionFlag drawn.2))

end Sys2Proof.Machine
end

