-- ==== Sys2Proof/Machine/InputTimers.lean ====
section
/-! DEFINITION. The key and timer instructions (44_input_timers.md). On entry the tick of the step has happened. -/

namespace Sys2Proof.Machine

/-- SkipKeyPressed (R168). -/
def execSkipKeyPressed (x : RegIdx) (s : State) : Host.Outcome State Fault Refusal :=
  let (k, s') := keyPeek s
  .next (skipIf s' (keyMatches k (readV s x)))

/-- SkipKeyNotPressed (R169): no key counts as not pressed. -/
def execSkipKeyNotPressed (x : RegIdx) (s : State) : Host.Outcome State Fault Refusal :=
  let (k, s') := keyPeek s
  .next (skipIf s' (!keyMatches k (readV s x)))

/-- WaitKey (R170): enters `WAIT(x)` and polls; the next model steps poll again until a key comes (log 7). -/
def execWaitKey (x : RegIdx) (s : State) : Host.Outcome State Fault Refusal := .next (pollWait s x)

/-- SetRegFromDelay (R171). -/
def execSetRegFromDelay (x : RegIdx) (s : State) : Host.Outcome State Fault Refusal := .next (writeV s x s.dt)

/-- SetDelay (R172). -/
def execSetDelay (x : RegIdx) (s : State) : Host.Outcome State Fault Refusal := .next { s with dt := readV s x }

/-- SetSound (R173): `ST` drives no output (log 26). -/
def execSetSound (x : RegIdx) (s : State) : Host.Outcome State Fault Refusal := .next { s with st := readV s x }

end Sys2Proof.Machine
end

