-- ==== Sys2Proof/Machine/MemoryIndex.lean ====
section
/-! DEFINITION. The index register and memory instructions (42_memory_index.md). The block is checked before any write (R151),
and no instruction of the last three changes `I` (R152). -/

namespace Sys2Proof.Machine

/-- SetI (R153). -/
def execSetI (nnn : Addr12) (s : State) : Host.Outcome State Fault Refusal := .next { s with i := addrOperand nnn }

/-- AddToI (R154): modulo 2^16, no flag. -/
def execAddToI (x : RegIdx) (s : State) : Host.Outcome State Fault Refusal :=
  .next { s with i := s.i + (readV s x).setWidth 16 }

/-- SetIToFontAddr (R155). -/
def execSetIToFontAddr (x : RegIdx) (s : State) : Host.Outcome State Fault Refusal :=
  .next { s with i := glyphAddr (readV s x) }

/-- StoreBCD (R156). -/
def execStoreBCD (x : RegIdx) (s : State) : Host.Outcome State Fault Refusal :=
  match firstOutOfRange s 3 with
  | some a => raiseOwn s (.memBounds a)
  | none => .next (storeBytes s (dataAddr s 0) (bcdDigits (readV s x)))

/-- RegDump (R157). -/
def execRegDump (x : RegIdx) (s : State) : Host.Outcome State Fault Refusal :=
  match firstOutOfRange s (x.toNat + 1) with
  | some a => raiseOwn s (.memBounds a)
  | none => .next (storeBytes s (dataAddr s 0) (dumpedBytes s x))

/-- RegLoad (R158). -/
def execRegLoad (x : RegIdx) (s : State) : Host.Outcome State Fault Refusal :=
  match firstOutOfRange s (x.toNat + 1) with
  | some a => raiseOwn s (.memBounds a)
  | none => .next (loadRegs s (x.toNat + 1))

end Sys2Proof.Machine
end

