-- ==== Sys2Proof/Machine/HostPort.lean ====
section
/-! DEFINITION. The host's entry point `load` (20_memory.md R60, R61). Reset is `State.reset`; `step` is in Step.lean. -/

namespace Sys2Proof.Machine

/-- The most bytes a program keeps, `MEM_SIZE - PROG_BASE` (R60). -/
abbrev maxProgram : Nat := memSize - progBase

/-- The copy of `load`: at most 3584 bytes from 0x200, the rest discarded (R60). -/
def loadProgram (s : State) (bytes : List Byte) : State := storeBytes s progBase (bytes.take maxProgram)

/-- `load(bytes)`: once, after reset and before the first step; refused otherwise (R61). -/
def load (bytes : List Byte) (s : State) : Host.Outcome State Fault Refusal :=
  match s.phase with
  | .created => .next { loadProgram s bytes with phase := .loaded }
  | .loaded => .refused .loadNotAllowed
  | .running => .refused .loadNotAllowed

end Sys2Proof.Machine
end

