-- ==== Sys2Proof/Machine/Step.lean ====
section
/-! DEFINITION. The step (10_state.md R34) and the placing of an instruction where it is fetched. -/

namespace Sys2Proof.Machine

/-- One call of the host's `step()` (10_state.md R34), stage by stage; or, while the core is in `WAIT(x)`, one more poll of the
suspended call, with no tick and no fetch (10_state.md R45, log 7). -/
def step (s : State) : Host.Outcome State Fault Refusal :=
  match s.halt with
  | some _ => .next s
  | none =>
    match s.wait with
    | some x => .next (pollWait s x)
    | none =>
      let s1 := beginStep s
      match fetchBytes s1 with
      | none => .next (raise s1 s1.pc (.fetchBounds s1.pc))
      | some (hi, lo) =>
        match decode hi lo with
        | .illegal word => .next (raise s1 s1.pc (.decodeError word))
        | .instr i => exec i (advance s1)

/-- Where `withFetchWord` places an instruction: at `PC`, or at `PROG_BASE` when no word at `PC` can be fetched. -/
def fetchPlace (s : State) : Addr := if s.pc.toNat + 1 < memSize then s.pc else BitVec.ofNat 16 progBase

/-- `s` with the instruction whose bits are `w` (numbered as opcode_table.json numbers them) where the next step fetches it. A
halted or waiting core would not fetch, so it is made to; `PC` moves only where no word could be fetched at it (log 11). -/
def State.withFetchWord (s : State) (nbits w : Nat) : State :=
  let word : Word := BitVec.ofNat 16 (w % 2 ^ nbits)
  let a := fetchPlace s
  { storeBytes s a.toNat [highByte word, lowByte word] with pc := a, halt := none, wait := none }

end Sys2Proof.Machine
end

