-- ==== Sys2Proof/Safety.lean ====
section
/-! DEFINITION. What counts as a safe run, the invariant, and the words the statements use. -/

namespace Sys2Proof

/-! Words of the statements about the instructions. -/

/-- The registers an instruction may write (10_state.md R29). -/
def Instr.mayWrite (i : Instr) (r : RegIdx) : Prop :=
  match i with
  | .setConst x _ | .addConst x _ | .setReg x _ | .orReg x _ | .andReg x _ | .xorReg x _ | .rand x _
  | .setRegFromDelay x | .waitKey x => r = x
  | .addReg x _ | .subReg x _ | .shiftRight x _ | .subRegRev x _ | .shiftLeft x _ => r = x ∨ r = Machine.vf
  | .draw _ _ _ => r = Machine.vf
  | .regLoad x => r.toNat ≤ x.toNat
  | .clearScreen | .ret | .goto _ | .call _ | .skipEqConst _ _ | .skipNeqConst _ _ | .skipEqReg _ _ | .skipNeqReg _ _
  | .setI _ | .jumpV0 _ | .skipKeyPressed _ | .skipKeyNotPressed _ | .setDelay _ | .setSound _ | .addToI _
  | .setIToFontAddr _ | .storeBCD _ | .regDump _ => False

/-- How many bytes at `I` and up an instruction reads or writes (20_memory.md R54). -/
def Instr.blockLength : Instr → Nat
  | .draw _ _ n => n.toNat
  | .storeBCD _ => 3
  | .regDump x => x.toNat + 1
  | .regLoad x => x.toNat + 1
  | .clearScreen | .ret | .goto _ | .call _ | .skipEqConst _ _ | .skipNeqConst _ _ | .skipEqReg _ _ | .setConst _ _
  | .addConst _ _ | .setReg _ _ | .orReg _ _ | .andReg _ _ | .xorReg _ _ | .addReg _ _ | .subReg _ _ | .shiftRight _ _
  | .subRegRev _ _ | .shiftLeft _ _ | .skipNeqReg _ _ | .setI _ | .jumpV0 _ | .rand _ _ | .skipKeyPressed _
  | .skipKeyNotPressed _ | .setRegFromDelay _ | .waitKey _ | .setDelay _ | .setSound _ | .addToI _
  | .setIToFontAddr _ => 0

/-- How many bytes at `I` and up an instruction stores (20_memory.md R54). -/
def Instr.storedLength : Instr → Nat
  | .storeBCD _ => 3
  | .regDump x => x.toNat + 1
  | .clearScreen | .ret | .goto _ | .call _ | .skipEqConst _ _ | .skipNeqConst _ _ | .skipEqReg _ _ | .setConst _ _
  | .addConst _ _ | .setReg _ _ | .orReg _ _ | .andReg _ _ | .xorReg _ _ | .addReg _ _ | .subReg _ _ | .shiftRight _ _
  | .subRegRev _ _ | .shiftLeft _ _ | .skipNeqReg _ _ | .setI _ | .jumpV0 _ | .rand _ _ | .draw _ _ _ | .skipKeyPressed _
  | .skipKeyNotPressed _ | .setRegFromDelay _ | .waitKey _ | .setDelay _ | .setSound _ | .addToI _
  | .setIToFontAddr _ | .regLoad _ => 0

end Sys2Proof

namespace Sys2Proof.Machine

/-! Runs (70_reset_and_hazards.md R210). -/

/-- The core is neither halted nor in the middle of a WaitKey, so its next step fetches. -/
abbrev State.ready (s : State) : Prop := s.halt = none ∧ s.wait = none

/-- The instruction the next step fetches and decodes, if there is one. -/
def fetchedInstr (s : State) : Option Instr :=
  match fetchBytes s with
  | none => none
  | some (hi, lo) =>
    match decode hi lo with
    | .instr i => some i
    | .illegal _ => none

/-- Parked: ready, with the word `1NNN`, `NNN = PC`, at `PC` (R210, log 27). Since the word is fetched, `PC <= 0xFFE`, so
`PC` is its own low twelve bits. -/
abbrev State.parked (s : State) : Prop := s.ready ∧ fetchedInstr s = some (.goto (s.pc.setWidth 12))

/-- How a run stands in a state (R210): a halted state is a failure, never a successful end (60_exceptions.md R178). -/
inductive Verdict where
  | notEnded
  | endedWell
  | endedBadly
deriving DecidableEq, Repr

/-- The verdict on one state (R210). -/
def State.verdict (s : State) : Verdict :=
  if s.halt ≠ none then .endedBadly else if s.parked then .endedWell else .notEnded

/-- The verdict on a run of at most n steps: that of the first state that is parked or halted (R210). -/
def runVerdict (n : Nat) (s : State) : Verdict :=
  match n with
  | 0 => s.verdict
  | k + 1 =>
    match s.verdict with
    | .endedWell => .endedWell
    | .endedBadly => .endedBadly
    | .notEnded =>
      match step s with
      | .next t => runVerdict k t
      | .fault _ => .endedBadly
      | .refused _ => .notEnded

/-- A safe run of n steps: it has not ended badly. -/
abbrev safeRun (n : Nat) (s : State) : Prop := runVerdict n s ≠ .endedBadly

/-! The invariant. -/

/-- What every step keeps: usable parameters, memory and framebuffer in canonical form, and a core that is not both halted
and waiting and is either only after its first step (10_state.md R44, R45, R46). -/
structure State.Inv (s : State) : Prop where
  parameters : s.cfg.wellFormed
  memory : Memory.wf s.cfg s.mem
  screen : s.cfg.canonicalCells s.fb
  haltedOrWaiting : s.halt = none ∨ s.wait = none
  begun : s.halt ≠ none ∨ s.wait ≠ none → s.phase = .running

/-! Words of the statements about states. -/

/-- Every byte of memory reads in `t` as in `s`. -/
abbrev sameMemory (s t : State) : Prop := ∀ a, memByte t a = memByte s a

/-- Every register reads in `t` as in `s`. -/
abbrev sameRegisters (s t : State) : Prop := ∀ r, readV t r = readV s r

/-- From `s` to `t` only the named registers changed: no other register, no byte of memory, nothing else of the state. -/
abbrev onlyRegisters (s t : State) (dests : List RegIdx) : Prop :=
  (∀ r, r ∉ dests → readV t r = readV s r) ∧ sameMemory s t ∧ t = { s with v := t.v }

/-- From `s` to `t` only `PC` changed: no register, no byte of memory, nothing else of the state. -/
abbrev onlyPc (s t : State) : Prop := sameRegisters s t ∧ sameMemory s t ∧ t = { s with pc := t.pc }

/-- From `s` to `t` only `I` changed: no register, no byte of memory, nothing else of the state. -/
abbrev onlyI (s t : State) : Prop := sameRegisters s t ∧ sameMemory s t ∧ t = { s with i := t.i }

/-- The state a fault of the executing instruction leaves (60_exceptions.md R177): nothing written, `PC` back at `pc_i`, the
record in `HALT`. -/
def faulted (s : State) (cause : Cause) : State :=
  { s with pc := s.pc - 2, halt := some { cause := cause, pc := s.pc - 2 } }

/-- The state at the end of stage 2 of a step: the timers one lower, never below 0 (60_exceptions.md R183). -/
def ticked (s : State) : State :=
  { s with phase := .running, dt := BitVec.ofNat 8 (s.dt.toNat - 1), st := BitVec.ofNat 8 (s.st.toNat - 1) }

/-- The sprite bit of the k-th cell Draw visits, k = 8 * row + column, bit 7 of a row first (43_display.md R162). -/
def spriteBit (s : State) (k : Nat) : Bool := (memByte s (s.i.toNat + k / 8)).getLsbD (7 - k % 8)

/-- The column of the k-th cell a Draw of `Vx` visits (43_display.md R161). -/
def visitX (s : State) (x : RegIdx) (k : Nat) : Nat := (readV s x).toNat + k % 8

/-- The row of the k-th cell a Draw of `Vy` visits (43_display.md R161). -/
def visitY (s : State) (y : RegIdx) (k : Nat) : Nat := (readV s y).toNat + k / 8

/-- How many of the first m cells a Draw visits have sprite bit 1 and stand for the cell `p`. -/
def togglesOf (s : State) (x y : RegIdx) (p : Pixel) (m : Nat) : Nat :=
  (List.range m).countP fun k =>
    spriteBit s k && decide (resolveCell s.cfg (visitX s x k) (visitY s y k) = some p)

/-- A Draw of n rows has its sprite in memory (42_memory_index.md R151). -/
abbrev spriteInMemory (s : State) (n : Nibble) : Prop := n = 0 ∨ s.i.toNat + n.toNat ≤ 4096

/-- Every cell a Draw visits lies on the grid. -/
abbrev boxOnGrid (s : State) (x y : RegIdx) (n : Nibble) : Prop :=
  ∀ k < 8 * n.toNat, s.cfg.onGrid (visitX s x k) (visitY s y k)

end Sys2Proof.Machine
end

