-- ==== Sys2Proof/Certificates/Slice0/Obligations.lean ====
section
/-! DEFINITION. The statements for the provers. In a statement about `exec` the state is that of stage 6 of a step: the tick has
happened and `PC` holds `pc_i + 2` (10_state.md R34). Every statement holds for every value of the parameters in `cfg` and of
the queued and free answers of the collaborators, unless it names one. -/

open Sys2Proof Sys2Proof.Machine

/-! ## Encoding -/

/-- 30_encoding.md R69, with the assembly of the word from its two bytes. -/
def Obligations.WordFieldsAreBitSlices : Prop :=
  (∀ hi lo : Byte, (wordOfBytes hi lo).toNat = hi.toNat * 256 + lo.toNat) ∧
  ∀ w : Word,
    (fieldOp w).toNat = w.toNat / 4096 ∧
    (fieldX w).toNat = w.toNat / 256 % 16 ∧
    (fieldY w).toNat = w.toNat / 16 % 16 ∧
    (fieldN w).toNat = w.toNat % 16 ∧
    (fieldKk w).toNat = w.toNat % 256 ∧
    (fieldNnn w).toNat = w.toNat % 4096

/-- 95_test_vectors.md: bytes written out there and what they stand for, one instruction at least of each family. The nibble
values other than `8XY4` and `3XKK` are the spec's choice D32 (log 14). -/
def Obligations.WordsWrittenOutDecodeAsGiven : Prop :=
  decode 0x8A 0xB4 = .instr (.addReg 0xA 0xB) ∧
  decode 0x3A 0x08 = .instr (.skipEqConst 0xA 0x08) ∧
  decode 0x00 0xEE = .instr .ret ∧
  decode 0x12 0x34 = .instr (.goto 0x234) ∧
  decode 0xBF 0xFF = .instr (.jumpV0 0xFFF) ∧
  decode 0x81 0x0E = .instr (.shiftLeft 1 0) ∧
  decode 0xC3 0x0F = .instr (.rand 3 0x0F) ∧
  decode 0xF2 0x1E = .instr (.addToI 2) ∧
  decode 0xF7 0x33 = .instr (.storeBCD 7) ∧
  decode 0x00 0xE0 = .instr .clearScreen ∧
  decode 0xD1 0x25 = .instr (.draw 1 2 5) ∧
  decode 0xE5 0xA1 = .instr (.skipKeyNotPressed 5) ∧
  decode 0xF3 0x0A = .instr (.waitKey 3) ∧
  decode 0x51 0x21 = .illegal 0x5121

/-- Decode and encode agree: no bit of any operand of any instruction is dropped. The patterns are the spec's choice D32 (log 14). -/
def Obligations.DecodeOfEncodeIsTheInstruction : Prop :=
  ∀ i : Instr, i.wellFormed = true → decode (highByte (encode i)) (lowByte (encode i)) = .instr i

/-- The other direction: a word that decodes is the word of its instruction, so no two words decode to one instruction. That the
decoder keeps the ignored `y` field of the shifts is the model's choice (log 19); the patterns are the spec's choice D32 (log 14). -/
def Obligations.EncodeOfDecodedIsTheWord : Prop :=
  ∀ (hi lo : Byte) (i : Instr), decode hi lo = .instr i →
    highByte (encode i) = hi ∧ lowByte (encode i) = lo

/-- 30_encoding.md R78: the decoder against the `(match, mask)` pairs of the opcode table. The patterns are the spec's choice
D32 (log 14). -/
def Obligations.DecodeMatchesExactlyOnePattern : Prop :=
  ∀ hi lo : Byte,
    (∀ i, decode hi lo = .instr i →
      i.pattern ∈ opcodeTable ∧ wordOfBytes hi lo &&& i.pattern.2 = i.pattern.1 ∧
      ∀ p ∈ opcodeTable, wordOfBytes hi lo &&& p.2 = p.1 → p = i.pattern) ∧
    (∀ w, decode hi lo = .illegal w →
      w = wordOfBytes hi lo ∧ ∀ p ∈ opcodeTable, wordOfBytes hi lo &&& p.2 ≠ p.1)

/-- 30_encoding.md R115: exactly these words are illegal. That `0NNN`, `5XYn` and `9XYn` are among them is the spec's choice
D9, D10 (log 15). -/
def Obligations.IllegalWordsAreExactlyTheListed : Prop :=
  ∀ w : Word, decodeWord w = .illegal w ↔
    (w.toNat / 4096 = 0x0 ∧ w.toNat ≠ 0x00E0 ∧ w.toNat ≠ 0x00EE) ∨
    (w.toNat / 4096 = 0x5 ∧ w.toNat % 16 ≠ 0) ∨
    (w.toNat / 4096 = 0x8 ∧ w.toNat % 16 ∈ [0x8, 0x9, 0xA, 0xB, 0xC, 0xD, 0xF]) ∨
    (w.toNat / 4096 = 0x9 ∧ w.toNat % 16 ≠ 0) ∨
    (w.toNat / 4096 = 0xE ∧ w.toNat % 256 ∉ [0x9E, 0xA1]) ∨
    (w.toNat / 4096 = 0xF ∧ w.toNat % 256 ∉ [0x07, 0x0A, 0x15, 0x18, 0x1E, 0x29, 0x33, 0x55, 0x65])

/-! ## The step and its faults -/

/-- 10_state.md R34: a step ticks, fetches the two bytes at `PC`, decodes, advances `PC` by 2 and executes. That the byte at `PC`
is the high one is the spec's choice D2 (log 13); `phase` is the model's own (log 10). -/
def Obligations.StepRunsTheDecodedInstruction : Prop :=
  ∀ (s : State) (i : Instr), s.ready → s.pc.toNat + 1 < 4096 →
    decode (memByte s s.pc.toNat) (memByte s (s.pc.toNat + 1)) = .instr i →
    step s = exec i
      { s with phase := .running
               dt := BitVec.ofNat 8 (s.dt.toNat - 1)
               st := BitVec.ofNat 8 (s.st.toNat - 1)
               pc := s.pc + 2 }

/-- 20_memory.md R51, 30_encoding.md R79, 60_exceptions.md R177: a fetch outside memory (code 2) and an illegal word (code 1)
halt the core with `PC` at the fetch address, after the tick (10_state.md R35). The faults' form and the fetch bound are the
spec's choices D4, D8 (log 9, log 16). -/
def Obligations.FetchAndDecodeFaultsHalt : Prop :=
  ∀ s : State, s.ready →
    (4096 ≤ s.pc.toNat + 1 →
      step s = .next { ticked s with halt := some { cause := .fetchBounds s.pc, pc := s.pc } }) ∧
    (∀ w, s.pc.toNat + 1 < 4096 → decode (memByte s s.pc.toNat) (memByte s (s.pc.toNat + 1)) = .illegal w →
      step s = .next { ticked s with halt := some { cause := .decodeError w, pc := s.pc } })

/-- 60_exceptions.md R178, R179: a halted core never changes, however often it is stepped. The spec's choice D30 (log 9). -/
def Obligations.HaltedCoreNeverChanges : Prop :=
  ∀ (s : State) (n : Nat), s.halt ≠ none → Host.Core.run Sys2Proof.core n s = .next s

/-- Every step of every state answers a next state: faults are states that record them in `HALT` (60_exceptions.md R177, log 9),
and no instruction is refused. -/
def Obligations.EveryStepAnswersNext : Prop := ∀ s : State, ∃ t, step s = .next t

/-- 60_exceptions.md R177: faults are precise. Whatever the instruction, the state after a step that halts is the state after
the tick with the record in `HALT`, and the record holds the instruction's address. The spec's choice D8 (log 9). -/
def Obligations.StepFaultIsPrecise : Prop :=
  ∀ (s t : State) (r : HaltRecord), s.ready → step s = .next t → t.halt = some r →
    r.pc = s.pc ∧ t = { ticked s with halt := some r }

/-- 60_exceptions.md R174, R180: which instruction raises which fault, when, and with which code and information. The names,
codes and bounds are the spec's choices D4, D5, D8, D12 (log 9, log 16, log 17). -/
def Obligations.FaultsHaveTheListedCauses : Prop :=
  ∀ (i : Instr) (s t : State) (r : HaltRecord), s.halt = none → exec i s = .next t → t.halt = some r →
    r.pc = s.pc - 2 ∧
    ((0 < i.blockLength ∧ 4096 < s.i.toNat + i.blockLength ∧ r.cause.code = 3 ∧
        r.cause = .memBounds (max s.i.toNat 4096)) ∨
     ((∃ nnn, i = .call nnn) ∧ s.sp.val = 256 ∧ r.cause.code = 4 ∧ r.cause = .stackOverflow) ∨
     (i = .ret ∧ s.sp.val = 0 ∧ r.cause.code = 5 ∧ r.cause = .stackUnderflow) ∨
     (∃ x y n cx cy, i = .draw x y n ∧ s.cfg.offGrid = .fault ∧ ¬ s.cfg.onGrid cx cy ∧ r.cause.code = 6 ∧
        r.cause = .fbBounds cx cy))

/-- 42_memory_index.md R151: Draw, StoreBCD, RegDump and RegLoad check every address of their block first; the fault names the
smallest address outside memory and nothing is written. The spec's choice D4, D8 (log 16). -/
def Obligations.BlockOutsideMemoryFaultsBeforeAnyWrite : Prop :=
  ∀ (i : Instr) (s : State), 0 < i.blockLength → 4096 < s.i.toNat + i.blockLength →
    ∃ k, k < i.blockLength ∧ 4096 ≤ s.i.toNat + k ∧ (∀ j < k, s.i.toNat + j < 4096) ∧
      exec i s = .next (faulted s (.memBounds (s.i.toNat + k)))

/-! ## Whole-machine rules -/

/-- 60_exceptions.md R183: every step that fetches lowers both timers by one, never below 0, whatever the instruction; only
SetDelay and SetSound then write a timer. -/
def Obligations.TimersFallByOneInEveryStep : Prop :=
  ∀ s t : State, s.ready → step s = .next t →
    ((∀ x, fetchedInstr s ≠ some (.setDelay x)) → t.dt.toNat = s.dt.toNat - 1) ∧
    ((∀ x, fetchedInstr s ≠ some (.setSound x)) → t.st.toNat = s.st.toNat - 1)

/-- 10_state.md R38, 42_memory_index.md R152: `I` is written by SetI, AddToI and SetIToFontAddr only. -/
def Obligations.IndexRegisterWrittenByThreeOnly : Prop :=
  ∀ (i : Instr) (s t : State), exec i s = .next t →
    (∀ nnn, i ≠ .setI nnn) → (∀ x, i ≠ .addToI x) → (∀ x, i ≠ .setIToFontAddr x) → t.i = s.i

/-- 10_state.md R39: only Call and Return write `STACK` or `SP`, and Return writes no entry. -/
def Obligations.StackWrittenByCallAndReturnOnly : Prop :=
  ∀ (i : Instr) (s t : State), exec i s = .next t → (∀ nnn, i ≠ .call nnn) →
    t.stack = s.stack ∧ (i ≠ .ret → t.sp = s.sp)

/-- 10_state.md R27, R29: a register is written only where the table of R29 says so; in particular `VF` as a flag by six
instructions only. -/
def Obligations.RegistersWrittenOnlyWhereListed : Prop :=
  ∀ (i : Instr) (s t : State) (r : RegIdx), exec i s = .next t → ¬ i.mayWrite r → readV t r = readV s r

/-- 20_memory.md R54: a byte of memory is written only by StoreBCD and RegDump, and only at `I` and up. -/
def Obligations.MemoryWrittenOnlyInTheStoredBlock : Prop :=
  ∀ (i : Instr) (s t : State) (a : Nat), exec i s = .next t →
    ¬ (s.i.toNat ≤ a ∧ a < s.i.toNat + i.storedLength) → memByte t a = memByte s a

/-- 10_state.md R42, 60_exceptions.md R185 to R191: timers, framebuffer and collaborators are touched by their own instructions
only, and no instruction changes the parameters (log 1) or the phase (log 10). -/
def Obligations.DevicesTouchedByTheirInstructionsOnly : Prop :=
  ∀ (i : Instr) (s t : State), exec i s = .next t →
    ((∀ x, i ≠ .setDelay x) → t.dt = s.dt) ∧
    ((∀ x, i ≠ .setSound x) → t.st = s.st) ∧
    (i ≠ .clearScreen → (∀ x y n, i ≠ .draw x y n) → t.fb = s.fb) ∧
    ((∀ x kk, i ≠ .rand x kk) → t.rands = s.rands) ∧
    ((∀ x, i ≠ .skipKeyPressed x) → (∀ x, i ≠ .skipKeyNotPressed x) → t.peeks = s.peeks) ∧
    ((∀ x, i ≠ .waitKey x) → t.waits = s.waits ∧ t.wait = s.wait) ∧
    t.cfg = s.cfg ∧ t.phase = s.phase

/-! ## Invariants -/

/-- The invariant is kept by every step, from every state that has it: memory and framebuffer stay in canonical form (log 12,
log 28), the framebuffer on its grid, and a core is never both halted and waiting. -/
def Obligations.InvariantKeptByEveryStep : Prop := ∀ s t : State, s.Inv → step s = .next t → t.Inv

/-- The invariant holds after reset, for all usable parameters and for the defaults, and after `load`. The canonical forms of memory
and framebuffer (log 28, log 12) and `phase` (log 10) are the model's choice. -/
def Obligations.InvariantHoldsAfterResetAndLoad : Prop :=
  (∀ c : Config, c.wellFormed → (State.resetWith c).Inv) ∧ State.reset.Inv ∧
  ∀ (bytes : List Byte) (s t : State), s.Inv → load bytes s = .next t → t.Inv

/-- The canonical forms of log 12 and log 28: memories that read the same, and screens with the same lit cells, are equal data. -/
def Obligations.EqualReadingIsEqualData : Prop :=
  (∀ (c : Config) (m m' : List Host.Cell), Memory.wf c m → Memory.wf c m' →
    (∀ a, readCell c m a = readCell c m' a) → m = m') ∧
  ∀ (c : Config) (fb fb' : List Pixel), c.canonicalCells fb → c.canonicalCells fb' →
    (∀ x y, c.onGrid x y → fbGet c fb x y = fbGet c fb' x y) → fb = fb'

/-- 70_reset_and_hazards.md R210: from a parked state every step changes only the timers, and the core stays parked. The end of
a run is the spec's choice D19 (log 27). -/
def Obligations.ParkedCoreOnlyTicks : Prop :=
  ∀ (s : State) (n : Nat), s.parked →
    ∃ t : State, Host.Core.run Sys2Proof.core (n + 1) s = .next t ∧ t.parked ∧
      t = { s with phase := .running
                   dt := BitVec.ofNat 8 (s.dt.toNat - (n + 1))
                   st := BitVec.ofNat 8 (s.st.toNat - (n + 1)) }

/-- 20_memory.md R66, 70_reset_and_hazards.md R208: the word RegDump writes at `PC` is the word the next fetch reads. The spec's
choice D27 (log 23). -/
def Obligations.NextFetchSeesTheDumpedWord : Prop :=
  ∀ (x : RegIdx) (s : State), 1 ≤ x.toNat → s.i.toNat + x.toNat < 4096 → s.pc = s.i →
    ∃ t, exec (.regDump x) s = .next t ∧ fetchBytes t = some (readV s 0, readV s 1)

/-- 40_control_flow.md R130: after a Call at P, whatever runs as long as the stack stays above its level, the matching Return goes
to P + 2 and restores `SP`. The spec's form of the law (90_conflicts.md C5). -/
def Obligations.ReturnGoesBackBehindItsCall : Prop :=
  ∀ (nnn : Addr12) (s t u : State) (n : Nat),
    s.ready → fetchedInstr s = some (.call nnn) → s.sp.val < 256 → step s = .next t →
    (∀ m ≤ n, ∃ w : State, Host.Core.run Sys2Proof.core m t = .next w ∧ s.sp.val < w.sp.val) →
    Host.Core.run Sys2Proof.core n t = .next u → u.sp.val = s.sp.val + 1 →
    u.ready → fetchedInstr u = some .ret →
    ∃ v, step u = .next v ∧ v.pc = s.pc + 2 ∧ v.sp = s.sp

/-! ## Control flow -/

/-- 40_control_flow.md R124, 10_state.md R40. The overflow fault is the spec's choice D5, D8 (log 17, log 9). -/
def Obligations.CallPushesTheAdvancedPc : Prop :=
  ∀ (nnn : Addr12) (s : State),
    (s.sp.val < 256 → ∃ t, exec (.call nnn) s = .next t ∧ t.pc.toNat = nnn.toNat ∧ t.sp.val = s.sp.val + 1 ∧
      (∀ k, (h : k < 256) → t.stack[k] = if k = s.sp.val then s.pc else s.stack[k]) ∧
      sameRegisters s t ∧ sameMemory s t ∧ t = { s with pc := t.pc, sp := t.sp, stack := t.stack }) ∧
    (s.sp.val = 256 → exec (.call nnn) s = .next (faulted s .stackOverflow))

/-- 40_control_flow.md R122, 10_state.md R41. The underflow fault is the spec's choice D5, D8 (log 17, log 9). -/
def Obligations.ReturnPopsThePc : Prop :=
  ∀ s : State,
    (∀ k, (h : k < 256) → s.sp.val = k + 1 → ∃ t, exec .ret s = .next t ∧ t.pc = s.stack[k] ∧ t.sp.val = k ∧
      sameRegisters s t ∧ sameMemory s t ∧ t = { s with pc := t.pc, sp := t.sp }) ∧
    (s.sp.val = 0 → exec .ret s = .next (faulted s .stackUnderflow))

/-- 40_control_flow.md R123, R129. That the sum of JumpV0 is not masked to 12 bits is the spec's choice D7 (log 18). -/
def Obligations.JumpsSetPcToTheirAddress : Prop :=
  ∀ (nnn : Addr12) (s : State),
    (∃ t, exec (.goto nnn) s = .next t ∧ t.pc.toNat = nnn.toNat ∧ onlyPc s t) ∧
    ∃ t, exec (.jumpV0 nnn) s = .next t ∧ t.pc.toNat = (readV s 0).toNat + nnn.toNat ∧ onlyPc s t

/-- 40_control_flow.md R125 to R128: a skip adds 2 to the advanced `PC`. The modulus 2^16 is the spec's choice D7 (log 18). -/
def Obligations.SkipsCompareAndSkip : Prop :=
  ∀ (x y : RegIdx) (kk : Byte) (s : State),
    (∃ t, exec (.skipEqConst x kk) s = .next t ∧ onlyPc s t ∧
      t.pc.toNat = if readV s x = kk then (s.pc.toNat + 2) % 65536 else s.pc.toNat) ∧
    (∃ t, exec (.skipNeqConst x kk) s = .next t ∧ onlyPc s t ∧
      t.pc.toNat = if readV s x ≠ kk then (s.pc.toNat + 2) % 65536 else s.pc.toNat) ∧
    (∃ t, exec (.skipEqReg x y) s = .next t ∧ onlyPc s t ∧
      t.pc.toNat = if readV s x = readV s y then (s.pc.toNat + 2) % 65536 else s.pc.toNat) ∧
    (∃ t, exec (.skipNeqReg x y) s = .next t ∧ onlyPc s t ∧
      t.pc.toNat = if readV s x ≠ readV s y then (s.pc.toNat + 2) % 65536 else s.pc.toNat)

/-! ## Registers and ALU -/

/-- 41_alu.md R134, R135, R136: no flag is written. -/
def Obligations.MovesAndAddConstWriteOneRegister : Prop :=
  ∀ (x y : RegIdx) (kk : Byte) (s : State),
    (∃ t, exec (.setConst x kk) s = .next t ∧ readV t x = kk ∧ onlyRegisters s t [x]) ∧
    (∃ t, exec (.addConst x kk) s = .next t ∧ (readV t x).toNat = ((readV s x).toNat + kk.toNat) % 256 ∧
      onlyRegisters s t [x]) ∧
    (∃ t, exec (.setReg x y) s = .next t ∧ readV t x = readV s y ∧ onlyRegisters s t [x])

/-- 41_alu.md R137, R138, R139, bit by bit: no flag is written. -/
def Obligations.BitwiseInstructionsActBitByBit : Prop :=
  ∀ (x y : RegIdx) (s : State),
    (∃ t, exec (.orReg x y) s = .next t ∧ onlyRegisters s t [x] ∧
      ∀ k < 8, (readV t x).getLsbD k = ((readV s x).getLsbD k || (readV s y).getLsbD k)) ∧
    (∃ t, exec (.andReg x y) s = .next t ∧ onlyRegisters s t [x] ∧
      ∀ k < 8, (readV t x).getLsbD k = ((readV s x).getLsbD k && (readV s y).getLsbD k)) ∧
    (∃ t, exec (.xorReg x y) s = .next t ∧ onlyRegisters s t [x] ∧
      ∀ k < 8, (readV t x).getLsbD k = ((readV s x).getLsbD k ^^ (readV s y).getLsbD k))

/-- 41_alu.md R140, R146 (with 10_state.md R28): the carry is the last write, so `x = 15` ends with the carry. -/
def Obligations.AddRegWrapsAndSetsCarry : Prop :=
  ∀ (x y : RegIdx) (s : State), ∃ t, exec (.addReg x y) s = .next t ∧
    (x ≠ vf → (readV t x).toNat = ((readV s x).toNat + (readV s y).toNat) % 256) ∧
    (readV t vf).toNat = (if (readV s x).toNat + (readV s y).toNat > 255 then 1 else 0) ∧
    onlyRegisters s t [x, vf]

/-- 41_alu.md R141, R143 (with 10_state.md R28): wrapping differences, with NOT borrow as the last write. -/
def Obligations.SubtractionsWrapAndSetNotBorrow : Prop :=
  ∀ (x y : RegIdx) (s : State),
    (∃ t, exec (.subReg x y) s = .next t ∧
      (x ≠ vf → (readV t x).toNat = (256 + (readV s x).toNat - (readV s y).toNat) % 256) ∧
      (readV t vf).toNat = (if (readV s x).toNat ≥ (readV s y).toNat then 1 else 0) ∧
      onlyRegisters s t [x, vf]) ∧
    (∃ t, exec (.subRegRev x y) s = .next t ∧
      (x ≠ vf → (readV t x).toNat = (256 + (readV s y).toNat - (readV s x).toNat) % 256) ∧
      (readV t vf).toNat = (if (readV s y).toNat ≥ (readV s x).toNat then 1 else 0) ∧
      onlyRegisters s t [x, vf])

/-- 41_alu.md R142, R144 and 10_state.md R28 (90_conflicts.md C2): the bit shifted out is the last write, and `Vy` plays no part
(D33, log 19). -/
def Obligations.ShiftsMoveOneBitIntoVf : Prop :=
  ∀ (x y : RegIdx) (s : State),
    (∃ t, exec (.shiftRight x y) s = .next t ∧
      (x ≠ vf → (readV t x).toNat = (readV s x).toNat / 2) ∧ (readV t vf).toNat = (readV s x).toNat % 2 ∧
      onlyRegisters s t [x, vf]) ∧
    (∃ t, exec (.shiftLeft x y) s = .next t ∧
      (x ≠ vf → (readV t x).toNat = 2 * (readV s x).toNat % 256) ∧ (readV t vf).toNat = (readV s x).toNat / 128 ∧
      onlyRegisters s t [x, vf]) ∧
    (∀ y', exec (.shiftRight x y') s = exec (.shiftRight x y) s ∧ exec (.shiftLeft x y') s = exec (.shiftLeft x y) s)

/-- 41_alu.md R148: k shifts in a row shift by k places, and the k-th puts the bit it shifts out into `VF`. `Vy` plays no part (D33,
log 19). -/
def Obligations.RepeatedShiftsEvictOneBitEach : Prop :=
  ∀ (x y : RegIdx) (s : State), x ≠ vf →
    (∃ f : Nat → State, f 0 = s ∧ ∀ k, exec (.shiftLeft x y) (f k) = .next (f (k + 1)) ∧
      (readV (f k) x).toNat = (readV s x).toNat * 2 ^ k % 256 ∧
      (k < 8 → (readV (f (k + 1)) vf).toNat = (readV s x).toNat / 2 ^ (7 - k) % 2)) ∧
    (∃ f : Nat → State, f 0 = s ∧ ∀ k, exec (.shiftRight x y) (f k) = .next (f (k + 1)) ∧
      (readV (f k) x).toNat = (readV s x).toNat / 2 ^ k ∧
      (readV (f (k + 1)) vf).toNat = (readV s x).toNat / 2 ^ k % 2)

/-- 41_alu.md R145, 60_exceptions.md R187: the register gets a byte of the source, masked, and one byte is drawn, also for mask 0
(the spec's choice D15). The byte is any byte; a queued one is taken first (log 5). -/
def Obligations.RandMasksOneDrawnByte : Prop :=
  ∀ (x : RegIdx) (kk : Byte) (s : State), ∃ (b : Byte) (t : State),
    exec (.rand x kk) s = .next t ∧ readV t x = b &&& kk ∧
    (∀ r, r ≠ x → readV t r = readV s r) ∧ sameMemory s t ∧ t = { s with v := t.v, rands := t.rands } ∧
    t.rands.drawn = s.rands.drawn + 1 ∧
    ∀ b' rest, s.rands.queued = b' :: rest → b = b' ∧ t.rands.queued = rest

/-! ## Index register and memory -/

/-- 42_memory_index.md R153. -/
def Obligations.SetISetsTheAddress : Prop :=
  ∀ (nnn : Addr12) (s : State), ∃ t, exec (.setI nnn) s = .next t ∧ t.i.toNat = nnn.toNat ∧ onlyI s t

/-- 42_memory_index.md R154, R155: no flag. The modulus, and that all 8 bits of `Vx` count, are the spec's choice D6 (log 18). -/
def Obligations.IndexArithmeticWritesNoFlag : Prop :=
  ∀ (x : RegIdx) (s : State),
    (∃ t, exec (.addToI x) s = .next t ∧ t.i.toNat = (s.i.toNat + (readV s x).toNat) % 65536 ∧ onlyI s t) ∧
    (∃ t, exec (.setIToFontAddr x) s = .next t ∧ t.i.toNat = 5 * (readV s x).toNat ∧ onlyI s t)

/-- 42_memory_index.md R160 (with R156): the three bytes are the decimal digits of `Vx`, hundreds at `I`, and no other byte changes.
The fault outside memory is `BlockOutsideMemoryFaultsBeforeAnyWrite`. -/
def Obligations.StoreBCDWritesTheDecimalDigits : Prop :=
  ∀ (x : RegIdx) (s : State), s.i.toNat + 3 ≤ 4096 →
    ∃ t, exec (.storeBCD x) s = .next t ∧
      (memByte t s.i.toNat).toNat = (readV s x).toNat / 100 ∧
      (memByte t (s.i.toNat + 1)).toNat = (readV s x).toNat / 10 % 10 ∧
      (memByte t (s.i.toNat + 2)).toNat = (readV s x).toNat % 10 ∧
      100 * (memByte t s.i.toNat).toNat + 10 * (memByte t (s.i.toNat + 1)).toNat + (memByte t (s.i.toNat + 2)).toNat
        = (readV s x).toNat ∧
      (readV s x = 184 → memByte t s.i.toNat = 1 ∧ memByte t (s.i.toNat + 1) = 8 ∧ memByte t (s.i.toNat + 2) = 4) ∧
      (∀ a, ¬ (s.i.toNat ≤ a ∧ a < s.i.toNat + 3) → memByte t a = memByte s a) ∧
      sameRegisters s t ∧ t = { s with mem := t.mem }

/-- 42_memory_index.md R157, R152: byte `I + k` becomes `Vk` for k up to x, no other byte and no register changes. -/
def Obligations.RegDumpStoresTheRegisters : Prop :=
  ∀ (x : RegIdx) (s : State), s.i.toNat + x.toNat < 4096 →
    ∃ t, exec (.regDump x) s = .next t ∧
      (∀ k : RegIdx, k ≤ x → memByte t (s.i.toNat + k.toNat) = readV s k) ∧
      (∀ a, ¬ (s.i.toNat ≤ a ∧ a < s.i.toNat + (x.toNat + 1)) → memByte t a = memByte s a) ∧
      sameRegisters s t ∧ t = { s with mem := t.mem }

/-- 42_memory_index.md R158, R152: `Vk` becomes byte `I + k` for k up to x, no other register and no byte changes. -/
def Obligations.RegLoadLoadsTheRegisters : Prop :=
  ∀ (x : RegIdx) (s : State), s.i.toNat + x.toNat < 4096 →
    ∃ t, exec (.regLoad x) s = .next t ∧
      (∀ k : RegIdx, k ≤ x → readV t k = memByte s (s.i.toNat + k.toNat)) ∧
      (∀ k : RegIdx, x < k → readV t k = readV s k) ∧
      sameMemory s t ∧ t = { s with v := t.v }

/-- 42_memory_index.md R159. -/
def Obligations.DumpThenLoadRestoresTheRegisters : Prop :=
  ∀ (x : RegIdx) (s : State), s.i.toNat + x.toNat < 4096 →
    ∃ t u, exec (.regDump x) s = .next t ∧
      exec (.regLoad x) { t with v := Vector.replicate 16 0 } = .next u ∧
      (∀ k : RegIdx, k ≤ x → readV u k = readV s k) ∧
      (∀ k : RegIdx, x < k → readV t k = readV s k ∧ readV u k = 0)

/-! ## Display -/

/-- 43_display.md R164, 60_exceptions.md R191. -/
def Obligations.ClearScreenClearsEveryCell : Prop :=
  ∀ s : State, ∃ t, exec .clearScreen s = .next t ∧ (∀ cx cy, fbGet t.cfg t.fb cx cy = false) ∧
    sameRegisters s t ∧ sameMemory s t ∧ t = { s with fb := t.fb }

/-- 43_display.md R165, R162, for every parameter: Draw completes where its sprite lies in memory and, under `fault`, its box on
the grid; each cell is XORed with the sprite bits of the visits that stand for it, so it flips where their number is odd.
That all 8 × n cells are visited at natural coordinates is the spec's choice D13, D34 (log 20). -/
def Obligations.DrawXorsTheSpriteOntoTheGrid : Prop :=
  ∀ (x y : RegIdx) (n : Nibble) (s : State), spriteInMemory s n → (s.cfg.offGrid = .fault → boxOnGrid s x y n) →
    ∃ t, exec (.draw x y n) s = .next t ∧
      (∀ cx cy, s.cfg.onGrid cx cy → fbGet t.cfg t.fb cx cy =
        (fbGet s.cfg s.fb cx cy ^^ decide (togglesOf s x y ⟨cx, cy⟩ (8 * n.toNat) % 2 = 1))) ∧
      (∀ r, r ≠ vf → readV t r = readV s r) ∧ sameMemory s t ∧ t = { s with v := t.v, fb := t.fb }

/-- 43_display.md R163, for every parameter: `VF` is 1 iff some visit with sprite bit 1 found its cell lit, counting what the
visits before it did to the cell; else 0. The visits are those of D13, D34 (log 20). -/
def Obligations.DrawFlagIsTheCollisionInVisitingOrder : Prop :=
  ∀ (x y : RegIdx) (n : Nibble) (s t : State), spriteInMemory s n → (s.cfg.offGrid = .fault → boxOnGrid s x y n) →
    exec (.draw x y n) s = .next t →
    (readV t vf = 0 ∨ readV t vf = 1) ∧
    (readV t vf = 1 ↔ ∃ k < 8 * n.toNat, ∃ p, resolveCell s.cfg (visitX s x k) (visitY s y k) = some p ∧
      spriteBit s k = true ∧ (fbGet s.cfg s.fb p.x p.y ^^ decide (togglesOf s x y p k % 2 = 1)) = true)

/-- 43_display.md R163 where no two visits stand for one cell: `VF` is 1 iff some cell with sprite bit 1 was already set. -/
def Obligations.DrawCollidesIffALitCellIsHit : Prop :=
  ∀ (x y : RegIdx) (n : Nibble) (s : State), spriteInMemory s n → boxOnGrid s x y n →
    ∃ t, exec (.draw x y n) s = .next t ∧
      (readV t vf).toNat = (if ∃ k < 8 * n.toNat, spriteBit s k = true ∧
        fbGet s.cfg s.fb (visitX s x k) (visitY s y k) = true then 1 else 0)

/-- 43_display.md R166, first law, for a box on the grid: the second draw of the same sprite at the same place restores the
screen, and it reports a collision iff the first draw lit a cell. The spec asks only for a sprite bit; see log 32. -/
def Obligations.DrawingTwiceRestoresTheScreen : Prop :=
  ∀ (x y : RegIdx) (n : Nibble) (s : State), spriteInMemory s n → boxOnGrid s x y n → s.cfg.canonicalCells s.fb →
    ∃ t u, exec (.draw x y n) s = .next t ∧ exec (.draw x y n) { t with v := s.v } = .next u ∧ u.fb = s.fb ∧
      (readV u vf).toNat = (if ∃ k < 8 * n.toNat, spriteBit s k = true ∧
        fbGet s.cfg s.fb (visitX s x k) (visitY s y k) = false then 1 else 0)

/-- 43_display.md R166, second law (90_conflicts.md C10): two sprites without a common cell under their 1 bits, on cells that were 0
before the first draw, never collide. `s'` is any state that the second draw starts from, with the screen the first one left. -/
def Obligations.DisjointSpritesNeverCollide : Prop :=
  ∀ (x y x' y' : RegIdx) (n n' : Nibble) (s s' t u : State),
    boxOnGrid s x y n → boxOnGrid s' x' y' n' → spriteInMemory s n → spriteInMemory s' n' →
    exec (.draw x y n) s = .next t → s'.fb = t.fb → s'.cfg = t.cfg → exec (.draw x' y' n') s' = .next u →
    (∀ k < 8 * n.toNat, spriteBit s k = true → fbGet s.cfg s.fb (visitX s x k) (visitY s y k) = false) →
    (∀ k < 8 * n'.toNat, spriteBit s' k = true → fbGet s.cfg s.fb (visitX s' x' k) (visitY s' y' k) = false) →
    (∀ k < 8 * n.toNat, ∀ k' < 8 * n'.toNat, spriteBit s k = true → spriteBit s' k' = true →
      ¬ (visitX s x k = visitX s' x' k' ∧ visitY s y k = visitY s' y' k')) →
    readV t vf = 0 ∧ readV u vf = 0

/-- 60_exceptions.md R189, R190, R193: reading and writing a cell on the grid, and what `clip` and `wrap` do off it. The three
policies are the spec's choice D12 (log 12). -/
def Obligations.OffGridCellsFollowThePolicy : Prop :=
  ∀ (c : Config) (fb : List Pixel) (x y : Nat) (b : Bool),
    (c.onGrid x y → ∀ x' y', c.onGrid x' y' →
      fbGet c (fbSet c fb x y b) x' y' = if x' = x ∧ y' = y then b else fbGet c fb x' y') ∧
    (¬ c.onGrid x y → c.offGrid = .clip → fbGet c fb x y = false ∧ fbSet c fb x y b = fb) ∧
    (¬ c.onGrid x y → c.offGrid = .wrap → c.hasColumns → c.hasRows →
      fbGet c fb x y = fbGet c fb (x % c.fbW) (y % c.fbH) ∧ fbSet c fb x y b = fbSet c fb (x % c.fbW) (y % c.fbH) b)

/-- 43_display.md R165, 60_exceptions.md R180, R193: under `fault`, a Draw whose box leaves the grid raises FbBounds for its first
such cell in visiting order and touches no cell. The spec's choice D8, D12, D34 (log 9, log 12, log 20). -/
def Obligations.DrawOffTheGridFaultsUnderFault : Prop :=
  ∀ (x y : RegIdx) (n : Nibble) (s : State) (k : Nat), s.cfg.offGrid = .fault → spriteInMemory s n → k < 8 * n.toNat →
    ¬ s.cfg.onGrid (visitX s x k) (visitY s y k) →
    (∀ j < k, s.cfg.onGrid (visitX s x j) (visitY s y j)) →
    exec (.draw x y n) s = .next (faulted s (.fbBounds (visitX s x k) (visitY s y k)))

/-! ## Keys and timers -/

/-- 44_input_timers.md R168, R169, R167: the query answers at once, with no key or any key; the whole byte is compared, and no key
counts as not pressed (the spec's choices D28, D29; log 6, log 21). A queued answer is taken first. -/
def Obligations.KeySkipsCompareTheWholeByte : Prop :=
  ∀ (x : RegIdx) (s : State), ∃ (key : Option Key) (t u : State),
    exec (.skipKeyPressed x) s = .next t ∧ exec (.skipKeyNotPressed x) s = .next u ∧
    (∀ k rest, s.peeks.queued = k :: rest → key = k ∧ t.peeks.queued = rest ∧ u.peeks.queued = rest) ∧
    t.pc = (if key.map BitVec.toNat = some (readV s x).toNat then s.pc + 2 else s.pc) ∧
    u.pc = (if key.map BitVec.toNat = some (readV s x).toNat then s.pc else s.pc + 2) ∧
    sameRegisters s t ∧ sameMemory s t ∧ t = { s with pc := t.pc, peeks := t.peeks } ∧
    sameRegisters s u ∧ sameMemory s u ∧ u = { s with pc := u.pc, peeks := u.peeks }

/-- 44_input_timers.md R170, 10_state.md R45: with a key WaitKey completes, `Vx` gets the key; without one the core is in `WAIT(x)`
and nothing else changed. A queued answer is taken first. That a wait is polled is the model's choice (log 7). -/
def Obligations.WaitKeyTakesAKeyOrWaits : Prop :=
  ∀ (x : RegIdx) (s : State),
    (∀ c rest, s.waits.queued = some c :: rest → ∃ t, exec (.waitKey x) s = .next t ∧
      (readV t x).toNat = c.toNat ∧ (∀ r, r ≠ x → readV t r = readV s r) ∧ sameMemory s t ∧ t.waits.queued = rest ∧
      t = { s with v := t.v, wait := none, waits := t.waits }) ∧
    (∀ rest, s.waits.queued = none :: rest →
      exec (.waitKey x) s = .next { s with wait := some x, waits := ⟨rest, s.waits.drawn + 1⟩ }) ∧
    (s.waits.queued = [] → ∃ t, exec (.waitKey x) s = .next t ∧ sameMemory s t ∧
      (t = { s with wait := some x, waits := t.waits } ∨
        ∃ c : Key, (readV t x).toNat = c.toNat ∧ (∀ r, r ≠ x → readV t r = readV s r) ∧
          t = { s with v := t.v, wait := none, waits := t.waits }))

/-- 44_input_timers.md R170, 10_state.md R45: a step from `WAIT(x)`, whatever is queued or not, is one poll without a tick or a
fetch: either nothing but `waits` changes, or a key goes to `Vx` and ends the wait. With n polls queued that bring no key and then
a key, n steps change nothing and one more ends the wait. The spec's choice D31; the polls are the model's (log 7). -/
def Obligations.WaitingChangesNothingUntilTheKey : Prop :=
  ∀ (s : State) (x : RegIdx), s.halt = none → s.wait = some x →
    (∃ t : State, step s = .next t ∧ sameMemory s t ∧ t.waits.drawn = s.waits.drawn + 1 ∧
      (t = { s with waits := t.waits } ∨
        ∃ c : Key, (readV t x).toNat = c.toNat ∧ (∀ r, r ≠ x → readV t r = readV s r) ∧
          t = { s with v := t.v, wait := none, waits := t.waits })) ∧
    ∀ (c : Key) (n : Nat) (rest : List (Option Key)), s.waits.queued = List.replicate n none ++ some c :: rest →
      Host.Core.run Sys2Proof.core n s =
        .next { s with waits := ⟨some c :: rest, s.waits.drawn + n⟩ } ∧
      ∃ t : State, Host.Core.run Sys2Proof.core (n + 1) s = .next t ∧ (readV t x).toNat = c.toNat ∧
        (∀ r, r ≠ x → readV t r = readV s r) ∧ sameMemory s t ∧
        t = { s with v := t.v, wait := none, waits := ⟨rest, s.waits.drawn + n + 1⟩ }

/-- 44_input_timers.md R171, R172, R173: the executing instruction sees `DT` after the tick. That `ST` drives nothing is the spec's
choice D24 (log 26). -/
def Obligations.TimerInstructionsMoveTheTimers : Prop :=
  ∀ (x : RegIdx) (s : State),
    (∃ t, exec (.setRegFromDelay x) s = .next t ∧ readV t x = s.dt ∧ onlyRegisters s t [x]) ∧
    (∃ t, exec (.setDelay x) s = .next t ∧ t.dt = readV s x ∧ sameRegisters s t ∧ sameMemory s t ∧
      t = { s with dt := t.dt }) ∧
    (∃ t, exec (.setSound x) s = .next t ∧ t.st = readV s x ∧ sameRegisters s t ∧ sameMemory s t ∧
      t = { s with st := t.st })

/-- 70_reset_and_hazards.md R207: a SetDelay of v followed at once by a SetRegFromDelay reads v - 1, or 0. -/
def Obligations.TimerReadLagsByOneTick : Prop :=
  ∀ (x y : RegIdx) (s t : State), s.ready → fetchedInstr s = some (.setDelay x) → step s = .next t →
    fetchedInstr t = some (.setRegFromDelay y) →
    ∃ u, step t = .next u ∧ (readV u y).toNat = (readV s x).toNat - 1 ∧ u.dt = readV u y

/-! ## Reset and load -/

/-- 10_state.md R30, R31, 20_memory.md R59, for every value of the parameters: the registers, `PC` and memory after reset. -/
def Obligations.ResetSetsRegistersPcAndMemory : Prop :=
  ∀ c : Config,
    (∀ r, readV (State.resetWith c) r = 0) ∧
    (State.resetWith c).pc = 0x200 ∧
    (∀ a, (h : a < 80) → memByte (State.resetWith c) a = c.font[a]) ∧
    (∀ a, 80 ≤ a → memByte (State.resetWith c) a = 0)

/-- 70_reset_and_hazards.md R200, the rest of the state, for every value of the parameters. The form of the stack, `HALT`, `WAIT`
and `FB_INIT` is the spec's choice D8, D11, D21, D31 (log 3, log 9, log 17, log 7). -/
def Obligations.ResetLeavesNothingPending : Prop :=
  (∀ c : Config,
    (State.resetWith c).i = 0 ∧ (State.resetWith c).sp.val = 0 ∧
    (∀ k, (h : k < 256) → (State.resetWith c).stack[k] = 0) ∧
    (State.resetWith c).dt = 0 ∧ (State.resetWith c).st = 0 ∧
    (State.resetWith c).halt = none ∧ (State.resetWith c).wait = none ∧
    (∀ x y, c.onGrid x y → fbGet c (State.resetWith c).fb x y = decide (⟨x, y⟩ ∈ c.fbInit))) ∧
  (∀ x y, fbGet State.reset.cfg State.reset.fb x y = false)

/-- 70_reset_and_hazards.md R201, R202, R203: the first step after reset and `load` fetches the first two bytes of the program, or 0
where it has none, so with no program it raises DecodeError. Byte order and the form of the fault are the spec's choices D2, D8, D9
(log 13, log 9, log 15). -/
def Obligations.FirstStepFetchesTheLoadedWord : Prop :=
  ∀ (c : Config) (bytes : List Byte) (t : State), load bytes (State.resetWith c) = .next t →
    t.ready ∧ fetchBytes t = some (bytes.getD 0 0, bytes.getD 1 0) ∧
    (bytes = [] → step t = .next { ticked t with halt := some { cause := .decodeError 0x0000, pc := 0x200 } })

/-- 20_memory.md R60: at most 3584 bytes from 0x200, the rest discarded, nothing else changed. The premise and
the new value of `phase` are the model's own (log 10), for the spec's choice D22. -/
def Obligations.LoadCopiesAndTruncates : Prop :=
  ∀ (bytes : List Byte) (s : State), s.phase = .created →
    ∃ t, load bytes s = .next t ∧
      (∀ k, (h : k < bytes.length) → k < 3584 → memByte t (0x200 + k) = bytes[k]) ∧
      (∀ a, ¬ (0x200 ≤ a ∧ a < 0x200 + min bytes.length 3584) → memByte t a = memByte s a) ∧
      t = { s with mem := t.mem, phase := .loaded }

/-- 20_memory.md R61, 93_implementation_defined.md X13: a second `load`, and a `load` after one or more steps, are refused: steps of
a ready core, and of a waiting or halted one that is no longer only created, which `State.Inv` says of both. The spec's choice D22;
`phase` is the model's own (log 10). -/
def Obligations.LoadIsRefusedOnceLoadedOrRunning : Prop :=
  ∀ (bytes bytes' : List Byte) (s t : State),
    (load bytes s = .next t → load bytes' t = .refused .loadNotAllowed) ∧
    ∀ n : Nat, s.ready ∨ s.phase ≠ .created → Host.Core.run Sys2Proof.core (n + 1) s = .next t →
      load bytes' t = .refused .loadNotAllowed
end

