-- ==== Sys2Proof/Laws/Decode.lean ====
section
/-! SUPPORT. The fields of a packed word, and a word as the packing of its fields. -/

namespace Sys2Proof

theorem wordOfBytes_split (w : Word) : wordOfBytes (highByte w) (lowByte w) = w := by
  ext i hi; simp [wordOfBytes, highByte, lowByte]; interval_cases i <;> simp

theorem highByte_wordOfBytes (hi lo : Byte) : highByte (wordOfBytes hi lo) = hi := by
  ext i h; simp [wordOfBytes, highByte]; interval_cases i <;> simp

theorem lowByte_wordOfBytes (hi lo : Byte) : lowByte (wordOfBytes hi lo) = lo := by
  ext i h; simp [wordOfBytes, lowByte]; interval_cases i <;> simp

theorem fieldOp_packNnn (op : Nibble) (nnn : Addr12) : fieldOp (packNnn op nnn) = op := by
  ext i h; simp [packNnn, fieldOp]; interval_cases i <;> simp

theorem fieldNnn_packNnn (op : Nibble) (nnn : Addr12) : fieldNnn (packNnn op nnn) = nnn := by
  ext i h; simp [packNnn, fieldNnn]; interval_cases i <;> simp

theorem fieldOp_packXkk (op : Nibble) (x : RegIdx) (kk : Byte) : fieldOp (packXkk op x kk) = op := by
  ext i h; simp [packXkk, fieldOp]; interval_cases i <;> simp

theorem fieldX_packXkk (op : Nibble) (x : RegIdx) (kk : Byte) : fieldX (packXkk op x kk) = x := by
  ext i h; simp [packXkk, fieldX]; interval_cases i <;> simp

theorem fieldKk_packXkk (op : Nibble) (x : RegIdx) (kk : Byte) : fieldKk (packXkk op x kk) = kk := by
  ext i h; simp [packXkk, fieldKk]; interval_cases i <;> simp

theorem fieldOp_packXyn (op : Nibble) (x y : RegIdx) (n : Nibble) : fieldOp (packXyn op x y n) = op := by
  ext i h; simp [packXyn, fieldOp]; interval_cases i <;> simp

theorem fieldX_packXyn (op : Nibble) (x y : RegIdx) (n : Nibble) : fieldX (packXyn op x y n) = x := by
  ext i h; simp [packXyn, fieldX]; interval_cases i <;> simp

theorem fieldY_packXyn (op : Nibble) (x y : RegIdx) (n : Nibble) : fieldY (packXyn op x y n) = y := by
  ext i h; simp [packXyn, fieldY]; interval_cases i <;> simp

theorem fieldN_packXyn (op : Nibble) (x y : RegIdx) (n : Nibble) : fieldN (packXyn op x y n) = n := by
  ext i h; simp [packXyn, fieldN]; interval_cases i <;> simp

theorem packNnn_fields (w : Word) : packNnn (fieldOp w) (fieldNnn w) = w := by
  ext i h; simp [packNnn, fieldOp, fieldNnn]; interval_cases i <;> simp

theorem packXkk_fields (w : Word) : packXkk (fieldOp w) (fieldX w) (fieldKk w) = w := by
  ext i h; simp [packXkk, fieldOp, fieldX, fieldKk]; interval_cases i <;> simp

theorem packXyn_fields (w : Word) : packXyn (fieldOp w) (fieldX w) (fieldY w) (fieldN w) = w := by
  ext i h; simp [packXyn, fieldOp, fieldX, fieldY, fieldN]; interval_cases i <;> simp

/-! A packed word under the masks of the opcode table. -/

theorem masked_packNnn (op : Nibble) (nnn : Addr12) : packNnn op nnn &&& 0xF000 = op.setWidth 16 <<< 12 := by
  ext i h; simp [packNnn]; interval_cases i <;> simp

theorem masked_packXkk (op : Nibble) (x : RegIdx) (kk : Byte) : packXkk op x kk &&& 0xF000 = op.setWidth 16 <<< 12 := by
  ext i h; simp [packXkk]; interval_cases i <;> simp

theorem masked_packXkk_sub (op : Nibble) (x : RegIdx) (kk : Byte) :
    packXkk op x kk &&& 0xF0FF = (op.setWidth 16 <<< 12 ||| kk.setWidth 16) := by
  ext i h; simp [packXkk]; interval_cases i <;> simp

theorem masked_packXyn (op : Nibble) (x y : RegIdx) (n : Nibble) : packXyn op x y n &&& 0xF000 = op.setWidth 16 <<< 12 := by
  ext i h; simp [packXyn]; interval_cases i <;> simp

theorem masked_packXyn_sub (op : Nibble) (x y : RegIdx) (n : Nibble) :
    packXyn op x y n &&& 0xF00F = (op.setWidth 16 <<< 12 ||| n.setWidth 16) := by
  ext i h; simp [packXyn]; interval_cases i <;> simp

/-- No instruction is ill-formed: its operands have the widths of their fields by their types. -/
theorem Instr.wellFormed_all (i : Instr) : i.wellFormed = true := by
  cases i <;> simp only [Instr.wellFormed, Instr.operands, List.all_cons, List.all_nil, BitVec.isLt, decide_true, Bool.and_self]

end Sys2Proof
end

