-- ==== Sys2Proof/Laws/State.lean ====
section
/-! SUPPORT. What each shared operation does to each field of State, one lemma per field, so that no later proof unfolds a
record update. -/

namespace Sys2Proof.Machine

@[simp] theorem writeV_v (s : State) (x : RegIdx) (b : Byte) : (writeV s x b).v = s.v.set x.toNat b x.isLt := rfl
@[simp] theorem writeV_i (s : State) (x : RegIdx) (b : Byte) : (writeV s x b).i = s.i := rfl
@[simp] theorem writeV_pc (s : State) (x : RegIdx) (b : Byte) : (writeV s x b).pc = s.pc := rfl
@[simp] theorem writeV_stack (s : State) (x : RegIdx) (b : Byte) : (writeV s x b).stack = s.stack := rfl
@[simp] theorem writeV_sp (s : State) (x : RegIdx) (b : Byte) : (writeV s x b).sp = s.sp := rfl
@[simp] theorem writeV_dt (s : State) (x : RegIdx) (b : Byte) : (writeV s x b).dt = s.dt := rfl
@[simp] theorem writeV_st (s : State) (x : RegIdx) (b : Byte) : (writeV s x b).st = s.st := rfl
@[simp] theorem writeV_halt (s : State) (x : RegIdx) (b : Byte) : (writeV s x b).halt = s.halt := rfl
@[simp] theorem writeV_wait (s : State) (x : RegIdx) (b : Byte) : (writeV s x b).wait = s.wait := rfl
@[simp] theorem writeV_mem (s : State) (x : RegIdx) (b : Byte) : (writeV s x b).mem = s.mem := rfl
@[simp] theorem writeV_fb (s : State) (x : RegIdx) (b : Byte) : (writeV s x b).fb = s.fb := rfl
@[simp] theorem writeV_cfg (s : State) (x : RegIdx) (b : Byte) : (writeV s x b).cfg = s.cfg := rfl
@[simp] theorem writeV_peeks (s : State) (x : RegIdx) (b : Byte) : (writeV s x b).peeks = s.peeks := rfl
@[simp] theorem writeV_waits (s : State) (x : RegIdx) (b : Byte) : (writeV s x b).waits = s.waits := rfl
@[simp] theorem writeV_rands (s : State) (x : RegIdx) (b : Byte) : (writeV s x b).rands = s.rands := rfl
@[simp] theorem writeV_phase (s : State) (x : RegIdx) (b : Byte) : (writeV s x b).phase = s.phase := rfl

@[simp] theorem storeByte_v (s : State) (a : Nat) (b : Byte) : (storeByte s a b).v = s.v := rfl
@[simp] theorem storeByte_i (s : State) (a : Nat) (b : Byte) : (storeByte s a b).i = s.i := rfl
@[simp] theorem storeByte_pc (s : State) (a : Nat) (b : Byte) : (storeByte s a b).pc = s.pc := rfl
@[simp] theorem storeByte_stack (s : State) (a : Nat) (b : Byte) : (storeByte s a b).stack = s.stack := rfl
@[simp] theorem storeByte_sp (s : State) (a : Nat) (b : Byte) : (storeByte s a b).sp = s.sp := rfl
@[simp] theorem storeByte_dt (s : State) (a : Nat) (b : Byte) : (storeByte s a b).dt = s.dt := rfl
@[simp] theorem storeByte_st (s : State) (a : Nat) (b : Byte) : (storeByte s a b).st = s.st := rfl
@[simp] theorem storeByte_halt (s : State) (a : Nat) (b : Byte) : (storeByte s a b).halt = s.halt := rfl
@[simp] theorem storeByte_wait (s : State) (a : Nat) (b : Byte) : (storeByte s a b).wait = s.wait := rfl
@[simp] theorem storeByte_mem (s : State) (a : Nat) (b : Byte) : (storeByte s a b).mem = writeCell s.cfg s.mem a b := rfl
@[simp] theorem storeByte_fb (s : State) (a : Nat) (b : Byte) : (storeByte s a b).fb = s.fb := rfl
@[simp] theorem storeByte_cfg (s : State) (a : Nat) (b : Byte) : (storeByte s a b).cfg = s.cfg := rfl
@[simp] theorem storeByte_peeks (s : State) (a : Nat) (b : Byte) : (storeByte s a b).peeks = s.peeks := rfl
@[simp] theorem storeByte_waits (s : State) (a : Nat) (b : Byte) : (storeByte s a b).waits = s.waits := rfl
@[simp] theorem storeByte_rands (s : State) (a : Nat) (b : Byte) : (storeByte s a b).rands = s.rands := rfl
@[simp] theorem storeByte_phase (s : State) (a : Nat) (b : Byte) : (storeByte s a b).phase = s.phase := rfl

@[simp] theorem raise_v (s : State) (p : Addr) (c : Cause) : (raise s p c).v = s.v := rfl
@[simp] theorem raise_i (s : State) (p : Addr) (c : Cause) : (raise s p c).i = s.i := rfl
@[simp] theorem raise_pc (s : State) (p : Addr) (c : Cause) : (raise s p c).pc = p := rfl
@[simp] theorem raise_stack (s : State) (p : Addr) (c : Cause) : (raise s p c).stack = s.stack := rfl
@[simp] theorem raise_sp (s : State) (p : Addr) (c : Cause) : (raise s p c).sp = s.sp := rfl
@[simp] theorem raise_dt (s : State) (p : Addr) (c : Cause) : (raise s p c).dt = s.dt := rfl
@[simp] theorem raise_st (s : State) (p : Addr) (c : Cause) : (raise s p c).st = s.st := rfl
@[simp] theorem raise_halt (s : State) (p : Addr) (c : Cause) : (raise s p c).halt = some { cause := c, pc := p } := rfl
@[simp] theorem raise_wait (s : State) (p : Addr) (c : Cause) : (raise s p c).wait = s.wait := rfl
@[simp] theorem raise_mem (s : State) (p : Addr) (c : Cause) : (raise s p c).mem = s.mem := rfl
@[simp] theorem raise_fb (s : State) (p : Addr) (c : Cause) : (raise s p c).fb = s.fb := rfl
@[simp] theorem raise_cfg (s : State) (p : Addr) (c : Cause) : (raise s p c).cfg = s.cfg := rfl
@[simp] theorem raise_peeks (s : State) (p : Addr) (c : Cause) : (raise s p c).peeks = s.peeks := rfl
@[simp] theorem raise_waits (s : State) (p : Addr) (c : Cause) : (raise s p c).waits = s.waits := rfl
@[simp] theorem raise_rands (s : State) (p : Addr) (c : Cause) : (raise s p c).rands = s.rands := rfl
@[simp] theorem raise_phase (s : State) (p : Addr) (c : Cause) : (raise s p c).phase = s.phase := rfl

@[simp] theorem advance_v (s : State) : (advance s).v = s.v := rfl
@[simp] theorem advance_i (s : State) : (advance s).i = s.i := rfl
@[simp] theorem advance_pc (s : State) : (advance s).pc = s.pc + 2 := rfl
@[simp] theorem advance_stack (s : State) : (advance s).stack = s.stack := rfl
@[simp] theorem advance_sp (s : State) : (advance s).sp = s.sp := rfl
@[simp] theorem advance_dt (s : State) : (advance s).dt = s.dt := rfl
@[simp] theorem advance_st (s : State) : (advance s).st = s.st := rfl
@[simp] theorem advance_halt (s : State) : (advance s).halt = s.halt := rfl
@[simp] theorem advance_wait (s : State) : (advance s).wait = s.wait := rfl
@[simp] theorem advance_mem (s : State) : (advance s).mem = s.mem := rfl
@[simp] theorem advance_fb (s : State) : (advance s).fb = s.fb := rfl
@[simp] theorem advance_cfg (s : State) : (advance s).cfg = s.cfg := rfl
@[simp] theorem advance_peeks (s : State) : (advance s).peeks = s.peeks := rfl
@[simp] theorem advance_waits (s : State) : (advance s).waits = s.waits := rfl
@[simp] theorem advance_rands (s : State) : (advance s).rands = s.rands := rfl
@[simp] theorem advance_phase (s : State) : (advance s).phase = s.phase := rfl

@[simp] theorem jumpTo_v (s : State) (a : Addr) : (jumpTo s a).v = s.v := rfl
@[simp] theorem jumpTo_i (s : State) (a : Addr) : (jumpTo s a).i = s.i := rfl
@[simp] theorem jumpTo_pc (s : State) (a : Addr) : (jumpTo s a).pc = a := rfl
@[simp] theorem jumpTo_stack (s : State) (a : Addr) : (jumpTo s a).stack = s.stack := rfl
@[simp] theorem jumpTo_sp (s : State) (a : Addr) : (jumpTo s a).sp = s.sp := rfl
@[simp] theorem jumpTo_dt (s : State) (a : Addr) : (jumpTo s a).dt = s.dt := rfl
@[simp] theorem jumpTo_st (s : State) (a : Addr) : (jumpTo s a).st = s.st := rfl
@[simp] theorem jumpTo_halt (s : State) (a : Addr) : (jumpTo s a).halt = s.halt := rfl
@[simp] theorem jumpTo_wait (s : State) (a : Addr) : (jumpTo s a).wait = s.wait := rfl
@[simp] theorem jumpTo_mem (s : State) (a : Addr) : (jumpTo s a).mem = s.mem := rfl
@[simp] theorem jumpTo_fb (s : State) (a : Addr) : (jumpTo s a).fb = s.fb := rfl
@[simp] theorem jumpTo_cfg (s : State) (a : Addr) : (jumpTo s a).cfg = s.cfg := rfl
@[simp] theorem jumpTo_peeks (s : State) (a : Addr) : (jumpTo s a).peeks = s.peeks := rfl
@[simp] theorem jumpTo_waits (s : State) (a : Addr) : (jumpTo s a).waits = s.waits := rfl
@[simp] theorem jumpTo_rands (s : State) (a : Addr) : (jumpTo s a).rands = s.rands := rfl
@[simp] theorem jumpTo_phase (s : State) (a : Addr) : (jumpTo s a).phase = s.phase := rfl

@[simp] theorem beginStep_v (s : State) : (beginStep s).v = s.v := rfl
@[simp] theorem beginStep_i (s : State) : (beginStep s).i = s.i := rfl
@[simp] theorem beginStep_pc (s : State) : (beginStep s).pc = s.pc := rfl
@[simp] theorem beginStep_stack (s : State) : (beginStep s).stack = s.stack := rfl
@[simp] theorem beginStep_sp (s : State) : (beginStep s).sp = s.sp := rfl
@[simp] theorem beginStep_dt (s : State) : (beginStep s).dt = countDown s.dt := rfl
@[simp] theorem beginStep_st (s : State) : (beginStep s).st = countDown s.st := rfl
@[simp] theorem beginStep_halt (s : State) : (beginStep s).halt = s.halt := rfl
@[simp] theorem beginStep_wait (s : State) : (beginStep s).wait = s.wait := rfl
@[simp] theorem beginStep_mem (s : State) : (beginStep s).mem = s.mem := rfl
@[simp] theorem beginStep_fb (s : State) : (beginStep s).fb = s.fb := rfl
@[simp] theorem beginStep_cfg (s : State) : (beginStep s).cfg = s.cfg := rfl
@[simp] theorem beginStep_peeks (s : State) : (beginStep s).peeks = s.peeks := rfl
@[simp] theorem beginStep_waits (s : State) : (beginStep s).waits = s.waits := rfl
@[simp] theorem beginStep_rands (s : State) : (beginStep s).rands = s.rands := rfl
@[simp] theorem beginStep_phase (s : State) : (beginStep s).phase = .running := rfl

@[simp] theorem resetWith_v (c : Config) : (State.resetWith c).v = Vector.replicate 16 0 := rfl
@[simp] theorem resetWith_i (c : Config) : (State.resetWith c).i = 0 := rfl
@[simp] theorem resetWith_pc (c : Config) : (State.resetWith c).pc = 0x200 := rfl
@[simp] theorem resetWith_stack (c : Config) : (State.resetWith c).stack = Vector.replicate 256 0 := rfl
@[simp] theorem resetWith_sp (c : Config) : (State.resetWith c).sp = 0 := rfl
@[simp] theorem resetWith_dt (c : Config) : (State.resetWith c).dt = 0 := rfl
@[simp] theorem resetWith_st (c : Config) : (State.resetWith c).st = 0 := rfl
@[simp] theorem resetWith_halt (c : Config) : (State.resetWith c).halt = none := rfl
@[simp] theorem resetWith_wait (c : Config) : (State.resetWith c).wait = none := rfl
@[simp] theorem resetWith_mem (c : Config) : (State.resetWith c).mem = [] := rfl
@[simp] theorem resetWith_fb (c : Config) : (State.resetWith c).fb = c.fbInit := rfl
@[simp] theorem resetWith_cfg (c : Config) : (State.resetWith c).cfg = c := rfl
@[simp] theorem resetWith_peeks (c : Config) : (State.resetWith c).peeks = Feed.fresh := rfl
@[simp] theorem resetWith_waits (c : Config) : (State.resetWith c).waits = Feed.fresh := rfl
@[simp] theorem resetWith_rands (c : Config) : (State.resetWith c).rands = Feed.fresh := rfl
@[simp] theorem resetWith_phase (c : Config) : (State.resetWith c).phase = .created := rfl

@[simp] theorem skipIf_v (s : State) (c : Bool) : (skipIf s c).v = s.v := by cases c <;> rfl
@[simp] theorem skipIf_i (s : State) (c : Bool) : (skipIf s c).i = s.i := by cases c <;> rfl
@[simp] theorem skipIf_pc (s : State) (c : Bool) : (skipIf s c).pc = if c then s.pc + 2 else s.pc := by cases c <;> rfl
@[simp] theorem skipIf_stack (s : State) (c : Bool) : (skipIf s c).stack = s.stack := by cases c <;> rfl
@[simp] theorem skipIf_sp (s : State) (c : Bool) : (skipIf s c).sp = s.sp := by cases c <;> rfl
@[simp] theorem skipIf_dt (s : State) (c : Bool) : (skipIf s c).dt = s.dt := by cases c <;> rfl
@[simp] theorem skipIf_st (s : State) (c : Bool) : (skipIf s c).st = s.st := by cases c <;> rfl
@[simp] theorem skipIf_halt (s : State) (c : Bool) : (skipIf s c).halt = s.halt := by cases c <;> rfl
@[simp] theorem skipIf_wait (s : State) (c : Bool) : (skipIf s c).wait = s.wait := by cases c <;> rfl
@[simp] theorem skipIf_mem (s : State) (c : Bool) : (skipIf s c).mem = s.mem := by cases c <;> rfl
@[simp] theorem skipIf_fb (s : State) (c : Bool) : (skipIf s c).fb = s.fb := by cases c <;> rfl
@[simp] theorem skipIf_cfg (s : State) (c : Bool) : (skipIf s c).cfg = s.cfg := by cases c <;> rfl
@[simp] theorem skipIf_peeks (s : State) (c : Bool) : (skipIf s c).peeks = s.peeks := by cases c <;> rfl
@[simp] theorem skipIf_waits (s : State) (c : Bool) : (skipIf s c).waits = s.waits := by cases c <;> rfl
@[simp] theorem skipIf_rands (s : State) (c : Bool) : (skipIf s c).rands = s.rands := by cases c <;> rfl
@[simp] theorem skipIf_phase (s : State) (c : Bool) : (skipIf s c).phase = s.phase := by cases c <;> rfl

@[simp] theorem storeBytes_v (s : State) (a : Nat) (bs : List Byte) : (storeBytes s a bs).v = s.v := by
  induction bs generalizing s a with
  | nil => rfl
  | cons b rest ih => simp [storeBytes, ih]

@[simp] theorem storeBytes_i (s : State) (a : Nat) (bs : List Byte) : (storeBytes s a bs).i = s.i := by
  induction bs generalizing s a with
  | nil => rfl
  | cons b rest ih => simp [storeBytes, ih]

@[simp] theorem storeBytes_pc (s : State) (a : Nat) (bs : List Byte) : (storeBytes s a bs).pc = s.pc := by
  induction bs generalizing s a with
  | nil => rfl
  | cons b rest ih => simp [storeBytes, ih]

@[simp] theorem storeBytes_stack (s : State) (a : Nat) (bs : List Byte) : (storeBytes s a bs).stack = s.stack := by
  induction bs generalizing s a with
  | nil => rfl
  | cons b rest ih => simp [storeBytes, ih]

@[simp] theorem storeBytes_sp (s : State) (a : Nat) (bs : List Byte) : (storeBytes s a bs).sp = s.sp := by
  induction bs generalizing s a with
  | nil => rfl
  | cons b rest ih => simp [storeBytes, ih]

@[simp] theorem storeBytes_dt (s : State) (a : Nat) (bs : List Byte) : (storeBytes s a bs).dt = s.dt := by
  induction bs generalizing s a with
  | nil => rfl
  | cons b rest ih => simp [storeBytes, ih]

@[simp] theorem storeBytes_st (s : State) (a : Nat) (bs : List Byte) : (storeBytes s a bs).st = s.st := by
  induction bs generalizing s a with
  | nil => rfl
  | cons b rest ih => simp [storeBytes, ih]

@[simp] theorem storeBytes_halt (s : State) (a : Nat) (bs : List Byte) : (storeBytes s a bs).halt = s.halt := by
  induction bs generalizing s a with
  | nil => rfl
  | cons b rest ih => simp [storeBytes, ih]

@[simp] theorem storeBytes_wait (s : State) (a : Nat) (bs : List Byte) : (storeBytes s a bs).wait = s.wait := by
  induction bs generalizing s a with
  | nil => rfl
  | cons b rest ih => simp [storeBytes, ih]

@[simp] theorem storeBytes_fb (s : State) (a : Nat) (bs : List Byte) : (storeBytes s a bs).fb = s.fb := by
  induction bs generalizing s a with
  | nil => rfl
  | cons b rest ih => simp [storeBytes, ih]

@[simp] theorem storeBytes_cfg (s : State) (a : Nat) (bs : List Byte) : (storeBytes s a bs).cfg = s.cfg := by
  induction bs generalizing s a with
  | nil => rfl
  | cons b rest ih => simp [storeBytes, ih]

@[simp] theorem storeBytes_peeks (s : State) (a : Nat) (bs : List Byte) : (storeBytes s a bs).peeks = s.peeks := by
  induction bs generalizing s a with
  | nil => rfl
  | cons b rest ih => simp [storeBytes, ih]

@[simp] theorem storeBytes_waits (s : State) (a : Nat) (bs : List Byte) : (storeBytes s a bs).waits = s.waits := by
  induction bs generalizing s a with
  | nil => rfl
  | cons b rest ih => simp [storeBytes, ih]

@[simp] theorem storeBytes_rands (s : State) (a : Nat) (bs : List Byte) : (storeBytes s a bs).rands = s.rands := by
  induction bs generalizing s a with
  | nil => rfl
  | cons b rest ih => simp [storeBytes, ih]

@[simp] theorem storeBytes_phase (s : State) (a : Nat) (bs : List Byte) : (storeBytes s a bs).phase = s.phase := by
  induction bs generalizing s a with
  | nil => rfl
  | cons b rest ih => simp [storeBytes, ih]

@[simp] theorem loadRegs_i (s : State) (m : Nat) : (loadRegs s m).i = s.i := by
  induction m with
  | zero => rfl
  | succ k ih => simp [loadRegs, ih]

@[simp] theorem loadRegs_pc (s : State) (m : Nat) : (loadRegs s m).pc = s.pc := by
  induction m with
  | zero => rfl
  | succ k ih => simp [loadRegs, ih]

@[simp] theorem loadRegs_stack (s : State) (m : Nat) : (loadRegs s m).stack = s.stack := by
  induction m with
  | zero => rfl
  | succ k ih => simp [loadRegs, ih]

@[simp] theorem loadRegs_sp (s : State) (m : Nat) : (loadRegs s m).sp = s.sp := by
  induction m with
  | zero => rfl
  | succ k ih => simp [loadRegs, ih]

@[simp] theorem loadRegs_dt (s : State) (m : Nat) : (loadRegs s m).dt = s.dt := by
  induction m with
  | zero => rfl
  | succ k ih => simp [loadRegs, ih]

@[simp] theorem loadRegs_st (s : State) (m : Nat) : (loadRegs s m).st = s.st := by
  induction m with
  | zero => rfl
  | succ k ih => simp [loadRegs, ih]

@[simp] theorem loadRegs_halt (s : State) (m : Nat) : (loadRegs s m).halt = s.halt := by
  induction m with
  | zero => rfl
  | succ k ih => simp [loadRegs, ih]

@[simp] theorem loadRegs_wait (s : State) (m : Nat) : (loadRegs s m).wait = s.wait := by
  induction m with
  | zero => rfl
  | succ k ih => simp [loadRegs, ih]

@[simp] theorem loadRegs_mem (s : State) (m : Nat) : (loadRegs s m).mem = s.mem := by
  induction m with
  | zero => rfl
  | succ k ih => simp [loadRegs, ih]

@[simp] theorem loadRegs_fb (s : State) (m : Nat) : (loadRegs s m).fb = s.fb := by
  induction m with
  | zero => rfl
  | succ k ih => simp [loadRegs, ih]

@[simp] theorem loadRegs_cfg (s : State) (m : Nat) : (loadRegs s m).cfg = s.cfg := by
  induction m with
  | zero => rfl
  | succ k ih => simp [loadRegs, ih]

@[simp] theorem loadRegs_peeks (s : State) (m : Nat) : (loadRegs s m).peeks = s.peeks := by
  induction m with
  | zero => rfl
  | succ k ih => simp [loadRegs, ih]

@[simp] theorem loadRegs_waits (s : State) (m : Nat) : (loadRegs s m).waits = s.waits := by
  induction m with
  | zero => rfl
  | succ k ih => simp [loadRegs, ih]

@[simp] theorem loadRegs_rands (s : State) (m : Nat) : (loadRegs s m).rands = s.rands := by
  induction m with
  | zero => rfl
  | succ k ih => simp [loadRegs, ih]

@[simp] theorem loadRegs_phase (s : State) (m : Nat) : (loadRegs s m).phase = s.phase := by
  induction m with
  | zero => rfl
  | succ k ih => simp [loadRegs, ih]

@[simp] theorem randByte_v (s : State) : (randByte s).2.v = s.v := rfl
@[simp] theorem randByte_i (s : State) : (randByte s).2.i = s.i := rfl
@[simp] theorem randByte_pc (s : State) : (randByte s).2.pc = s.pc := rfl
@[simp] theorem randByte_stack (s : State) : (randByte s).2.stack = s.stack := rfl
@[simp] theorem randByte_sp (s : State) : (randByte s).2.sp = s.sp := rfl
@[simp] theorem randByte_dt (s : State) : (randByte s).2.dt = s.dt := rfl
@[simp] theorem randByte_st (s : State) : (randByte s).2.st = s.st := rfl
@[simp] theorem randByte_halt (s : State) : (randByte s).2.halt = s.halt := rfl
@[simp] theorem randByte_wait (s : State) : (randByte s).2.wait = s.wait := rfl
@[simp] theorem randByte_mem (s : State) : (randByte s).2.mem = s.mem := rfl
@[simp] theorem randByte_fb (s : State) : (randByte s).2.fb = s.fb := rfl
@[simp] theorem randByte_cfg (s : State) : (randByte s).2.cfg = s.cfg := rfl
@[simp] theorem randByte_peeks (s : State) : (randByte s).2.peeks = s.peeks := rfl
@[simp] theorem randByte_waits (s : State) : (randByte s).2.waits = s.waits := rfl
@[simp] theorem randByte_rands (s : State) : (randByte s).2.rands = (s.rands.draw Config.freeRandByte).2 := rfl
@[simp] theorem randByte_phase (s : State) : (randByte s).2.phase = s.phase := rfl

@[simp] theorem keyPeek_v (s : State) : (keyPeek s).2.v = s.v := rfl
@[simp] theorem keyPeek_i (s : State) : (keyPeek s).2.i = s.i := rfl
@[simp] theorem keyPeek_pc (s : State) : (keyPeek s).2.pc = s.pc := rfl
@[simp] theorem keyPeek_stack (s : State) : (keyPeek s).2.stack = s.stack := rfl
@[simp] theorem keyPeek_sp (s : State) : (keyPeek s).2.sp = s.sp := rfl
@[simp] theorem keyPeek_dt (s : State) : (keyPeek s).2.dt = s.dt := rfl
@[simp] theorem keyPeek_st (s : State) : (keyPeek s).2.st = s.st := rfl
@[simp] theorem keyPeek_halt (s : State) : (keyPeek s).2.halt = s.halt := rfl
@[simp] theorem keyPeek_wait (s : State) : (keyPeek s).2.wait = s.wait := rfl
@[simp] theorem keyPeek_mem (s : State) : (keyPeek s).2.mem = s.mem := rfl
@[simp] theorem keyPeek_fb (s : State) : (keyPeek s).2.fb = s.fb := rfl
@[simp] theorem keyPeek_cfg (s : State) : (keyPeek s).2.cfg = s.cfg := rfl
@[simp] theorem keyPeek_peeks (s : State) : (keyPeek s).2.peeks = (s.peeks.draw Config.freeKeyPeek).2 := rfl
@[simp] theorem keyPeek_waits (s : State) : (keyPeek s).2.waits = s.waits := rfl
@[simp] theorem keyPeek_rands (s : State) : (keyPeek s).2.rands = s.rands := rfl
@[simp] theorem keyPeek_phase (s : State) : (keyPeek s).2.phase = s.phase := rfl

@[simp] theorem keyWaitPoll_v (s : State) : (keyWaitPoll s).2.v = s.v := rfl
@[simp] theorem keyWaitPoll_i (s : State) : (keyWaitPoll s).2.i = s.i := rfl
@[simp] theorem keyWaitPoll_pc (s : State) : (keyWaitPoll s).2.pc = s.pc := rfl
@[simp] theorem keyWaitPoll_stack (s : State) : (keyWaitPoll s).2.stack = s.stack := rfl
@[simp] theorem keyWaitPoll_sp (s : State) : (keyWaitPoll s).2.sp = s.sp := rfl
@[simp] theorem keyWaitPoll_dt (s : State) : (keyWaitPoll s).2.dt = s.dt := rfl
@[simp] theorem keyWaitPoll_st (s : State) : (keyWaitPoll s).2.st = s.st := rfl
@[simp] theorem keyWaitPoll_halt (s : State) : (keyWaitPoll s).2.halt = s.halt := rfl
@[simp] theorem keyWaitPoll_wait (s : State) : (keyWaitPoll s).2.wait = s.wait := rfl
@[simp] theorem keyWaitPoll_mem (s : State) : (keyWaitPoll s).2.mem = s.mem := rfl
@[simp] theorem keyWaitPoll_fb (s : State) : (keyWaitPoll s).2.fb = s.fb := rfl
@[simp] theorem keyWaitPoll_cfg (s : State) : (keyWaitPoll s).2.cfg = s.cfg := rfl
@[simp] theorem keyWaitPoll_peeks (s : State) : (keyWaitPoll s).2.peeks = s.peeks := rfl
@[simp] theorem keyWaitPoll_waits (s : State) : (keyWaitPoll s).2.waits = (s.waits.draw Config.freeKeyWait).2 := rfl
@[simp] theorem keyWaitPoll_rands (s : State) : (keyWaitPoll s).2.rands = s.rands := rfl
@[simp] theorem keyWaitPoll_phase (s : State) : (keyWaitPoll s).2.phase = s.phase := rfl

end Sys2Proof.Machine
end

