-- ==== Sys2Proof/Laws/Framebuffer.lean ====
section
/-! SUPPORT. The framebuffer laws: a read sees the last write to its cell and no other, and every operation keeps the
canonical form. -/

namespace Sys2Proof.Machine

theorem mem_lightCell (fb : List Pixel) (p q : Pixel) : q ∈ lightCell fb p ↔ q = p ∨ q ∈ fb := by
  induction fb with
  | nil => simp [lightCell]
  | cons r rest ih =>
    unfold lightCell
    split_ifs with h1 h2
    · simp
    · subst h2; simp
    · simp only [List.mem_cons, ih]; tauto

theorem mem_darkenCell (fb : List Pixel) (p q : Pixel) : q ∈ darkenCell fb p ↔ q ∈ fb ∧ q ≠ p := by
  simp [darkenCell]

theorem Pixel.before_trans {p q r : Pixel} (h1 : p.before q) (h2 : q.before r) : p.before r := by
  unfold Pixel.before at *; omega

theorem Pixel.before_total {p q : Pixel} (h : ¬ p.before q) (hne : p ≠ q) : q.before p := by
  have : ¬ (p.x = q.x ∧ p.y = q.y) := fun he => hne (by cases p; cases q; simp_all)
  unfold Pixel.before at *; omega

theorem pairwise_lightCell {fb : List Pixel} (p : Pixel) (h : fb.Pairwise Pixel.before) :
    (lightCell fb p).Pairwise Pixel.before := by
  induction fb with
  | nil => simp [lightCell]
  | cons q rest ih =>
    have hq := List.pairwise_cons.1 h
    unfold lightCell
    split_ifs with h1 h2
    · exact List.pairwise_cons.2 ⟨fun r hr => by
        rcases List.mem_cons.1 hr with rfl | hr
        · exact h1
        · exact Pixel.before_trans h1 (hq.1 r hr), h⟩
    · exact h
    · refine List.pairwise_cons.2 ⟨fun r hr => ?_, ih hq.2⟩
      rcases (mem_lightCell rest p r).1 hr with rfl | hr
      · exact Pixel.before_total h1 h2
      · exact hq.1 r hr

theorem resolveCell_onGrid {c : Config} {x y : Nat} (h : c.onGrid x y) : resolveCell c x y = some ⟨x, y⟩ := if_pos h

/-- Whatever cell a coordinate stands for lies on the grid. -/
theorem resolveCell_isOnGrid {c : Config} {x y : Nat} {p : Pixel} (h : resolveCell c x y = some p) : c.onGrid p.x p.y := by
  unfold resolveCell at h
  split_ifs at h with h1 h2 <;> cases h
  · exact h1
  · exact ⟨Nat.mod_lt _ h2.2.1, Nat.mod_lt _ h2.2.2⟩

/-- A read sees a write to its own cell and no other (60_exceptions.md R189, R190), in terms of the resolved cells. -/
theorem fbGet_fbSet (c : Config) (fb : List Pixel) (x y : Nat) (b : Bool) (x' y' : Nat) :
    fbGet c (fbSet c fb x y b) x' y' =
      if resolveCell c x' y' = resolveCell c x y ∧ (resolveCell c x y).isSome then b else fbGet c fb x' y' := by
  unfold fbGet fbSet
  cases h' : resolveCell c x' y' with
  | none => cases h : resolveCell c x y <;> simp
  | some q =>
    cases h : resolveCell c x y with
    | none => simp
    | some p =>
      cases b <;> simp only [mem_lightCell, mem_darkenCell, if_true, Bool.false_eq_true, if_false, Option.some.injEq,
        Option.isSome_some, and_true] <;> by_cases hqp : q = p <;> simp [hqp]

theorem fbGet_fbClear (c : Config) (x y : Nat) : fbGet c fbClear x y = false := by
  unfold fbGet fbClear; split <;> simp

theorem canonical_fbSet {c : Config} {fb : List Pixel} (x y : Nat) (b : Bool) (h : c.canonicalCells fb) :
    c.canonicalCells (fbSet c fb x y b) := by
  unfold fbSet
  cases hr : resolveCell c x y with
  | none => exact h
  | some p =>
    cases b
    · exact ⟨h.1.filter _, fun q hq => h.2 q ((mem_darkenCell fb p q).1 hq).1⟩
    · refine ⟨pairwise_lightCell p h.1, fun q hq => ?_⟩
      rcases (mem_lightCell fb p q).1 hq with rfl | hq
      · exact resolveCell_isOnGrid hr
      · exact h.2 q hq

theorem canonical_fbClear (c : Config) : c.canonicalCells fbClear :=
  ⟨List.Pairwise.nil, fun _ h => absurd h (List.not_mem_nil)⟩

theorem canonical_blit {c : Config} (visits : List Visit) {fb : List Pixel} (collided : Bool) (h : c.canonicalCells fb) :
    c.canonicalCells (blit c visits fb collided).1 := by
  induction visits generalizing fb collided with
  | nil => exact h
  | cons v rest ih => exact ih _ (canonical_fbSet _ _ _ h)

/-- A collision once seen stays seen. -/
theorem blit_collided_true (c : Config) (visits : List Visit) (fb : List Pixel) : (blit c visits fb true).2 = true := by
  induction visits generalizing fb with
  | nil => rfl
  | cons v rest ih => exact ih _

/-! What a whole blit does (43_display.md R162, R163). -/

theorem fbGet_of_resolve {c : Config} {fb : List Pixel} {x y : Nat} {p : Pixel} (h : resolveCell c x y = some p) :
    fbGet c fb x y = decide (p ∈ fb) := by
  simp [fbGet, h]

theorem fbGet_of_unresolved {c : Config} {fb : List Pixel} {x y : Nat} (h : resolveCell c x y = none) :
    fbGet c fb x y = false := by
  simp [fbGet, h]

theorem resolve_self {c : Config} {x y : Nat} {p : Pixel} (h : resolveCell c x y = some p) :
    resolveCell c p.x p.y = some p :=
  resolveCell_onGrid (resolveCell_isOnGrid h)

/-- How many visits with bit 1 stand for `p`. -/
def toggles (c : Config) (p : Pixel) (vs : List Visit) : Nat :=
  vs.countP fun v => v.bit && decide (resolveCell c v.x v.y = some p)

/-- One visit flips the cell it stands for where its bit is 1. -/
theorem fbGet_visit (c : Config) (fb : List Pixel) (v : Visit) {x y : Nat} {p : Pixel}
    (h : resolveCell c x y = some p) :
    fbGet c (fbSet c fb v.x v.y (fbGet c fb v.x v.y ^^ v.bit)) x y =
      (fbGet c fb x y ^^ (v.bit && decide (resolveCell c v.x v.y = some p))) := by
  rw [fbGet_fbSet]
  by_cases h1 : resolveCell c v.x v.y = some p
  · rw [h, h1]; simp [fbGet, h, h1]
  · have : ¬ (some p = resolveCell c v.x v.y) := fun e => h1 e.symm
    rw [h]; simp [h1, this]

theorem toggles_cons (c : Config) (p : Pixel) (v : Visit) (rest : List Visit) :
    decide (toggles c p (v :: rest) % 2 = 1) =
      ((v.bit && decide (resolveCell c v.x v.y = some p)) ^^ decide (toggles c p rest % 2 = 1)) := by
  have h : toggles c p (v :: rest) =
      toggles c p rest + if (v.bit && decide (resolveCell c v.x v.y = some p)) = true then 1 else 0 := List.countP_cons ..
  rw [h]
  rcases Nat.mod_two_eq_zero_or_one (toggles c p rest) with h0 | h0 <;>
    cases (v.bit && decide (resolveCell c v.x v.y = some p)) <;> simp [Nat.succ_mod_two_eq_one_iff, h0]

/-- A blit flips each cell as often as visits with bit 1 stand for it. -/
theorem fbGet_blit (c : Config) (vs : List Visit) (fb : List Pixel) (col : Bool) {x y : Nat} {p : Pixel}
    (h : resolveCell c x y = some p) :
    fbGet c (blit c vs fb col).1 x y = (fbGet c fb x y ^^ decide (toggles c p vs % 2 = 1)) := by
  induction vs generalizing fb col with
  | nil => simp [blit, toggles]
  | cons v rest ih => rw [blit, ih, fbGet_visit c fb v h, toggles_cons, Bool.xor_assoc]

/-- The collision flag of a blit: some visit with bit 1 found its cell lit by then. -/
theorem flag_blit (c : Config) (vs : List Visit) (fb : List Pixel) (col : Bool) :
    (blit c vs fb col).2 = true ↔ col = true ∨ ∃ k, ∃ h : k < vs.length, ∃ p,
      resolveCell c vs[k].x vs[k].y = some p ∧ vs[k].bit = true ∧
      (fbGet c fb p.x p.y ^^ decide (toggles c p (vs.take k) % 2 = 1)) = true := by
  induction vs generalizing fb col with
  | nil => simp [blit]
  | cons v rest ih =>
    have step0 : (fbGet c fb v.x v.y && !(fbGet c fb v.x v.y ^^ v.bit)) = true ↔
        ∃ p, resolveCell c v.x v.y = some p ∧ v.bit = true ∧
          (fbGet c fb p.x p.y ^^ decide (toggles c p [] % 2 = 1)) = true := by
      cases hr : resolveCell c v.x v.y with
      | none => simp [fbGet_of_unresolved hr]
      | some p =>
        have : fbGet c fb p.x p.y = fbGet c fb v.x v.y := by
          rw [fbGet_of_resolve hr, fbGet_of_resolve (resolve_self hr)]
        simp only [Option.some.injEq, exists_eq_left', this]
        cases fbGet c fb v.x v.y <;> cases v.bit <;> simp [toggles]
    rw [blit, ih, Bool.or_eq_true, step0, or_assoc]
    refine or_congr_right ⟨?_, ?_⟩
    · rintro (h | ⟨k, hk, p, h1, h2, h3⟩)
      · exact ⟨0, by simp, h⟩
      · refine ⟨k + 1, by simpa using hk, p, h1, h2, ?_⟩
        rwa [fbGet_visit c fb v (resolve_self h1), Bool.xor_assoc, ← toggles_cons] at h3
    · rintro ⟨k, hk, p, h1, h2, h3⟩
      cases k with
      | zero => exact .inl ⟨p, h1, h2, h3⟩
      | succ k =>
        refine .inr ⟨k, by simpa using hk, p, h1, h2, ?_⟩
        rw [fbGet_visit c fb v (resolve_self h1), Bool.xor_assoc, ← toggles_cons]
        exact h3

end Sys2Proof.Machine
end

