-- ==== Sys2Proof/Laws/Memory.lean ====
section
/-! SUPPORT. The memory laws: a read sees the last write to its address and no other, and every memory operation keeps the
canonical form. -/

namespace Sys2Proof.Machine

theorem listedByte_insertCell (m : List Host.Cell) (a : Nat) (b : Byte) (a' : Nat) :
    listedByte (insertCell m a b) a' = if a' = a then some b else listedByte m a' := by
  induction m with
  | nil => simp [insertCell, listedByte, eq_comm]
  | cons c rest ih =>
    obtain ⟨k, old⟩ := c
    unfold insertCell
    split_ifs with h1 h2 <;> simp only [listedByte, ih] <;> split_ifs <;> first | rfl | omega

theorem listedByte_eraseCell (m : List Host.Cell) (a a' : Nat) :
    listedByte (eraseCell m a) a' = if a' = a then none else listedByte m a' := by
  induction m with
  | nil => simp [eraseCell, listedByte]
  | cons c rest ih =>
    obtain ⟨k, old⟩ := c
    simp only [eraseCell] at ih ⊢
    by_cases hk : k = a
    · subst hk
      simp only [List.filter_cons, bne_self_eq_false, Bool.false_eq_true, if_false, ih, listedByte]
      split_ifs <;> first | rfl | omega
    · simp only [List.filter_cons, bne_iff_ne, ne_eq, hk, not_false_eq_true, if_true, listedByte, ih]
      split_ifs <;> first | rfl | omega

/-- A read sees a write to its own address and no other (20_memory.md R50, R63). -/
theorem readCell_writeCell (c : Config) (m : List Host.Cell) (a : Nat) (b : Byte) (a' : Nat) :
    readCell c (writeCell c m a b) a' = if a' = a then b else readCell c m a' := by
  unfold readCell writeCell
  by_cases hb : b = resetByte c a
  · rw [if_pos hb, listedByte_eraseCell]
    split_ifs with h
    · subst h; simp [hb]
    · rfl
  · rw [if_neg hb, listedByte_insertCell]
    split_ifs <;> rfl

theorem memByte_storeByte (s : State) (a : Nat) (b : Byte) (a' : Nat) :
    memByte (storeByte s a b) a' = if a' = a then b else memByte s a' := readCell_writeCell _ _ _ _ _

/-- What `storeBytes` leaves at every address. -/
theorem memByte_storeBytes (s : State) (a : Nat) (bs : List Byte) (a' : Nat) :
    memByte (storeBytes s a bs) a' =
      if h : a ≤ a' ∧ a' - a < bs.length then bs[a' - a]'h.2 else memByte s a' := by
  induction bs generalizing s a with
  | nil => simp [storeBytes]
  | cons b rest ih =>
    rw [storeBytes, ih, memByte_storeByte]
    by_cases h0 : a' = a
    · subst h0; simp
    · by_cases h1 : a + 1 ≤ a' ∧ a' - (a + 1) < rest.length
      · have hsub : a' - a = a' - (a + 1) + 1 := by omega
        have h2 : a ≤ a' ∧ a' - a < (b :: rest).length := by simp; omega
        rw [dif_pos h1, dif_pos h2]
        simp [hsub]
      · have h2 : ¬ (a ≤ a' ∧ a' - a < (b :: rest).length) := by simp; omega
        rw [dif_neg h1, dif_neg h2, if_neg h0]

/-- A state whose memory list and parameters are those of another reads as it does. -/
theorem memByte_congr {s t : State} (hm : t.mem = s.mem) (hc : t.cfg = s.cfg) (a : Nat) : memByte t a = memByte s a := by
  simp [memByte, hm, hc]

/-! The canonical form. -/

theorem mem_insertCell {m : List Host.Cell} {a : Nat} {b : Byte} {cell : Host.Cell} (h : cell ∈ insertCell m a b) :
    cell = (a, b) ∨ cell ∈ m := by
  induction m with
  | nil => simpa [insertCell] using h
  | cons c rest ih =>
    obtain ⟨k, old⟩ := c
    unfold insertCell at h
    split_ifs at h with h1 h2 <;> simp only [List.mem_cons] at h ⊢
    · tauto
    · tauto
    · rcases h with h | h
      · tauto
      · have := ih h; tauto

theorem pairwise_insertCell {m : List Host.Cell} (a : Nat) (b : Byte)
    (h : m.Pairwise fun p q => p.1 < q.1) : (insertCell m a b).Pairwise fun p q => p.1 < q.1 := by
  induction m with
  | nil => simp [insertCell]
  | cons c rest ih =>
    obtain ⟨k, old⟩ := c
    rw [List.pairwise_cons] at h
    unfold insertCell
    split_ifs with h1 h2
    · rw [List.pairwise_cons, List.pairwise_cons]
      refine ⟨fun q hq => ?_, h⟩
      rcases List.mem_cons.1 hq with rfl | hq
      · exact h1
      · exact lt_trans h1 (h.1 q hq)
    · subst h2
      exact List.pairwise_cons.2 h
    · rw [List.pairwise_cons]
      refine ⟨fun q hq => ?_, ih h.2⟩
      rcases mem_insertCell hq with rfl | hq
      · simp only; omega
      · exact h.1 q hq

/-- Writing inside memory keeps the canonical form. -/
theorem wf_writeCell {c : Config} {m : List Host.Cell} {a : Nat} {b : Byte} (ha : a < 4096) (h : Memory.wf c m) :
    Memory.wf c (writeCell c m a b) := by
  unfold writeCell
  split_ifs with hb
  · exact ⟨h.1.filter _, fun cell hc => h.2 cell (List.mem_of_mem_filter hc)⟩
  · refine ⟨pairwise_insertCell a b h.1, fun cell hc => ?_⟩
    rcases mem_insertCell hc with rfl | hc
    · exact ⟨ha, hb⟩
    · exact h.2 cell hc

theorem wf_storeByte {s : State} {a : Nat} {b : Byte} (ha : a < 4096) (h : Memory.wf s.cfg s.mem) :
    Memory.wf s.cfg (storeByte s a b).mem := wf_writeCell ha h

/-- Writing bytes that all lie inside memory keeps the canonical form. -/
theorem wf_storeBytes {s : State} {a : Nat} {bs : List Byte} (ha : bs = [] ∨ a + bs.length ≤ 4096)
    (h : Memory.wf s.cfg s.mem) : Memory.wf s.cfg (storeBytes s a bs).mem := by
  induction bs generalizing s a with
  | nil => exact h
  | cons b rest ih =>
    have hlen : a + rest.length + 1 ≤ 4096 := by simpa [Nat.add_assoc] using ha
    have := @ih (storeByte s a b) (a + 1) (by right; omega) (wf_storeByte (by omega) h)
    simpa [storeBytes] using this

/-- Memory after reset is in canonical form. -/
theorem wf_resetWith (c : Config) : Memory.wf (State.resetWith c).cfg (State.resetWith c).mem :=
  ⟨List.Pairwise.nil, fun _ h => absurd h List.not_mem_nil⟩

/-- Memory after reset reads as the reset content (20_memory.md R59). -/
theorem memByte_resetWith (c : Config) (a : Nat) : memByte (State.resetWith c) a = resetByte c a := rfl

/-- Storing bytes changes memory only. -/
theorem storeBytes_eq (s : State) (a : Nat) (bs : List Byte) :
    storeBytes s a bs = { s with mem := (storeBytes s a bs).mem } := by
  induction bs generalizing s a with
  | nil => rfl
  | cons b rest ih => rw [storeBytes, ih]; rfl

end Sys2Proof.Machine
end

