-- ==== Sys2Proof/Laws/Ops.lean ====
section
/-! SUPPORT. For each shared operation, once, everything it does. -/

namespace Sys2Proof.Machine

/-! Registers. -/

@[simp] theorem readV_writeV (s : State) (x : RegIdx) (b : Byte) (r : RegIdx) :
    readV (writeV s x b) r = if r = x then b else readV s r := by
  unfold readV writeV
  by_cases h : r = x
  · subst h; simp
  · have : x.toNat ≠ r.toNat := fun he => h (BitVec.eq_of_toNat_eq he.symm)
    simp [h, this]

/-- The flag is the final write; the result stays where the destination is not `VF` (10_state.md R28). -/
theorem readV_writeResultThenFlag (s : State) (x : RegIdx) (result flag : Byte) (r : RegIdx) :
    readV (writeResultThenFlag s x result flag) r = if r = vf then flag else if r = x then result else readV s r := by
  simp [writeResultThenFlag]

/-- Two states with the same register file read the same. -/
theorem readV_congr {s t : State} (h : t.v = s.v) (r : RegIdx) : readV t r = readV s r := by simp [readV, h]

/-- A register file is what its sixteen reads are. -/
theorem v_ext {s t : State} (h : ∀ r, readV t r = readV s r) : t.v = s.v := by
  apply Vector.ext
  intro k hk
  have := h ⟨⟨k, hk⟩⟩
  simpa [readV] using this

/-! The call stack. -/

/-- Everything a push does (10_state.md R40). -/
theorem push_eq_some {s t : State} {a : Addr} (h : push s a = some t) :
    ∃ hs : s.sp.val < 256, t = { s with stack := s.stack.set s.sp.val a hs, sp := ⟨s.sp.val + 1, Nat.succ_lt_succ hs⟩ } := by
  unfold push at h
  split_ifs at h with hs
  cases h
  exact ⟨hs, rfl⟩

theorem push_eq_none {s : State} {a : Addr} : push s a = none ↔ s.sp.val = 256 := by
  unfold push
  have := s.sp.isLt
  split_ifs with h <;> simp [stackDepth] at * <;> omega

/-- Everything a pop does (10_state.md R41). -/
theorem pop_eq_some {s t : State} {a : Addr} (h : pop s = some (a, t)) :
    ∃ k, ∃ hk : k < 256, s.sp.val = k + 1 ∧ a = s.stack[k]'hk ∧ t = { s with sp := ⟨k, Nat.lt_succ_of_lt hk⟩ } := by
  unfold pop at h
  split at h
  · cases h
  · rename_i k hk heq
    cases h
    exact ⟨k, Nat.lt_of_succ_lt_succ hk, by simp [heq], rfl, rfl⟩

theorem pop_eq_none {s : State} : pop s = none ↔ s.sp.val = 0 := by
  unfold pop
  split <;> rename_i heq <;> simp [heq]

/-! Timers. -/

/-- A count down is a natural subtraction: never below 0 (60_exceptions.md R183). -/
theorem countDown_toNat (t : Byte) : (countDown t).toNat = t.toNat - 1 := by
  unfold countDown
  have := t.isLt
  split_ifs with h
  · rw [BitVec.toNat_sub]; simp; omega
  · omega

/-! The block check (42_memory_index.md R151). -/

theorem firstOutOfRange_eq_none {s : State} {m : Nat} : firstOutOfRange s m = none ↔ m = 0 ∨ s.i.toNat + m ≤ 4096 := by
  unfold firstOutOfRange dataAddr memSize
  simp only [List.find?_eq_none, List.mem_map, List.mem_range, decide_eq_true_eq, not_le]
  constructor
  · intro h
    by_cases hm : m = 0
    · exact .inl hm
    · have := h (s.i.toNat + (m - 1)) ⟨m - 1, by omega, rfl⟩
      omega
  · rintro (h | h) a ⟨k, hk, rfl⟩ <;> omega

/-- The first address outside memory is `I` itself or, when `I` lies inside, 4096. -/
theorem firstOutOfRange_eq_some {s : State} {m a : Nat} :
    firstOutOfRange s m = some a ↔ 0 < m ∧ 4096 < s.i.toNat + m ∧ a = max s.i.toNat 4096 := by
  unfold firstOutOfRange dataAddr memSize
  rw [List.find?_map, Option.map_eq_some_iff]
  simp only [List.find?_range_eq_some, Function.comp_apply, decide_eq_true_eq, List.mem_range, Bool.not_eq_true',
    decide_eq_false_iff_not, not_le]
  constructor
  · rintro ⟨k, ⟨hk, hkm, hmin⟩, rfl⟩
    refine ⟨by omega, by omega, ?_⟩
    rcases Nat.eq_zero_or_pos k with rfl | hpos
    · omega
    · have := hmin (k - 1) (by omega)
      omega
  · rintro ⟨hm, hlt, rfl⟩
    exact ⟨max s.i.toNat 4096 - s.i.toNat, ⟨by omega, by omega, fun j hj => by omega⟩, by omega⟩

/-! Blocks of bytes. -/

@[simp] theorem dumpedBytes_length (s : State) (x : RegIdx) : (dumpedBytes s x).length = x.toNat + 1 := by simp [dumpedBytes]

theorem dumpedBytes_getElem (s : State) (x : RegIdx) (k : Nat) (h : k < (dumpedBytes s x).length) :
    (dumpedBytes s x)[k] = readV s (BitVec.ofNat 4 k) := by simp [dumpedBytes]

@[simp] theorem bcdDigits_length (b : Byte) : (bcdDigits b).length = 3 := rfl

/-- What `loadRegs` leaves in every register (42_memory_index.md R158). -/
theorem readV_loadRegs (s : State) (m : Nat) (hm : m ≤ 16) (r : RegIdx) :
    readV (loadRegs s m) r = if r.toNat < m then memByte s (dataAddr s r.toNat) else readV s r := by
  induction m with
  | zero => simp [loadRegs]
  | succ k ih =>
    have hr := r.isLt
    have hk : (BitVec.ofNat 4 k).toNat = k := by simp; omega
    rw [loadRegs, readV_writeV, ih (by omega)]
    by_cases h : r = BitVec.ofNat 4 k
    · have : r.toNat = k := by rw [h, hk]
      rw [if_pos h, if_pos (by omega), this]
    · have : r.toNat ≠ k := fun he => h (BitVec.eq_of_toNat_eq (by rw [hk, he]))
      rw [if_neg h]
      split_ifs <;> first | rfl | omega

/-! The collaborators. -/

/-- A queued answer is the answer. -/
theorem draw_queued {α : Type} (free : Nat → α) (f : Feed α) (a : α) (rest : List α) (h : f.queued = a :: rest) :
    f.draw free = (a, { queued := rest, drawn := f.drawn + 1 }) := by simp [Feed.draw, h]

/-- Every draw counts one. -/
theorem draw_drawn {α : Type} (free : Nat → α) (f : Feed α) : (f.draw free).2.drawn = f.drawn + 1 := by
  unfold Feed.draw; split <;> rfl

/-- Everything a poll of `KeyWait` does (10_state.md R45). -/
theorem pollWait_cases (s : State) (x : RegIdx) :
    (∃ c, (keyWaitPoll s).1 = some c ∧
      pollWait s x = { writeV (keyWaitPoll s).2 x (c.setWidth 8) with wait := none }) ∨
    ((keyWaitPoll s).1 = none ∧ pollWait s x = { (keyWaitPoll s).2 with wait := some x }) := by
  unfold pollWait
  split <;> rename_i h <;> rw [h]
  · exact .inl ⟨_, rfl, rfl⟩
  · exact .inr ⟨rfl, rfl⟩

/-! Fetch. -/

theorem fetchBytes_eq_some {s : State} (h : s.pc.toNat + 1 < 4096) :
    fetchBytes s = some (memByte s s.pc.toNat, memByte s (s.pc.toNat + 1)) := if_neg (by unfold memSize; omega)

theorem fetchBytes_eq_none {s : State} : fetchBytes s = none ↔ 4096 ≤ s.pc.toNat + 1 := by
  unfold fetchBytes memSize; split_ifs with h <;> simp [h]

/-- Loading registers changes registers only. -/
theorem loadRegs_eq (s : State) (m : Nat) : loadRegs s m = { s with v := (loadRegs s m).v } := by
  induction m with
  | zero => rfl
  | succ k ih => rw [loadRegs, ih]; rfl

theorem pollWait_queued_key {s : State} {x : RegIdx} {c : Key} {rest : List (Option Key)}
    (h : s.waits.queued = some c :: rest) :
    pollWait s x = { writeV s x (c.setWidth 8) with wait := none, waits := ⟨rest, s.waits.drawn + 1⟩ } := by
  unfold pollWait keyWaitPoll; rw [draw_queued _ _ _ _ h]; rfl

theorem pollWait_queued_none {s : State} {x : RegIdx} {rest : List (Option Key)}
    (h : s.waits.queued = none :: rest) :
    pollWait s x = { s with wait := some x, waits := ⟨rest, s.waits.drawn + 1⟩ } := by
  unfold pollWait keyWaitPoll; rw [draw_queued _ _ _ _ h]

/-- Draw's visits by number. -/
theorem spriteVisits_eq (s : State) (x0 y0 n : Nat) :
    spriteVisits s x0 y0 n = (List.range (8 * n)).map fun k =>
      ⟨x0 + k % 8, y0 + k / 8, (memByte s (dataAddr s (k / 8))).getLsbD (7 - k % 8)⟩ := by
  induction n with
  | zero => rfl
  | succ n ih =>
    unfold spriteVisits at ih ⊢
    rw [List.range_succ (n := n), List.flatMap_append, ih, Nat.mul_succ, List.range_add, List.map_append, List.map_map]
    congr 1
    simp only [List.flatMap_cons, List.flatMap_nil, List.append_nil]
    apply List.map_congr_left
    intro k hk
    have : k < 8 := List.mem_range.1 hk
    have h1 : (8 * n + k) % 8 = k := by omega
    have h2 : (8 * n + k) / 8 = n := by omega
    simp [h1, h2]

end Sys2Proof.Machine
end

