-- ==== Sys2Proof/Laws/PerInstr.lean ====
section
/-! SUPPORT. Laws of every instruction as syntax, one lemma per constructor. -/

namespace Sys2Proof.Laws.KeepsPattern

/-- The word an instruction encodes to matches the `(match, mask)` pair of its row (30_encoding.md R78, R80 to R113). -/
def Statement (i : Instr) : Prop := encode i &&& i.pattern.2 = i.pattern.1

theorem clearScreen : Statement .clearScreen := rfl
theorem ret : Statement .ret := rfl
theorem goto (nnn : Addr12) : Statement (.goto nnn) := masked_packNnn _ _
theorem call (nnn : Addr12) : Statement (.call nnn) := masked_packNnn _ _
theorem skipEqConst (x : RegIdx) (kk : Byte) : Statement (.skipEqConst x kk) := masked_packXkk _ _ _
theorem skipNeqConst (x : RegIdx) (kk : Byte) : Statement (.skipNeqConst x kk) := masked_packXkk _ _ _
theorem skipEqReg (x : RegIdx) (y : RegIdx) : Statement (.skipEqReg x y) := masked_packXyn_sub _ _ _ _
theorem setConst (x : RegIdx) (kk : Byte) : Statement (.setConst x kk) := masked_packXkk _ _ _
theorem addConst (x : RegIdx) (kk : Byte) : Statement (.addConst x kk) := masked_packXkk _ _ _
theorem setReg (x : RegIdx) (y : RegIdx) : Statement (.setReg x y) := masked_packXyn_sub _ _ _ _
theorem orReg (x : RegIdx) (y : RegIdx) : Statement (.orReg x y) := masked_packXyn_sub _ _ _ _
theorem andReg (x : RegIdx) (y : RegIdx) : Statement (.andReg x y) := masked_packXyn_sub _ _ _ _
theorem xorReg (x : RegIdx) (y : RegIdx) : Statement (.xorReg x y) := masked_packXyn_sub _ _ _ _
theorem addReg (x : RegIdx) (y : RegIdx) : Statement (.addReg x y) := masked_packXyn_sub _ _ _ _
theorem subReg (x : RegIdx) (y : RegIdx) : Statement (.subReg x y) := masked_packXyn_sub _ _ _ _
theorem shiftRight (x : RegIdx) (y : RegIdx) : Statement (.shiftRight x y) := masked_packXyn_sub _ _ _ _
theorem subRegRev (x : RegIdx) (y : RegIdx) : Statement (.subRegRev x y) := masked_packXyn_sub _ _ _ _
theorem shiftLeft (x : RegIdx) (y : RegIdx) : Statement (.shiftLeft x y) := masked_packXyn_sub _ _ _ _
theorem skipNeqReg (x : RegIdx) (y : RegIdx) : Statement (.skipNeqReg x y) := masked_packXyn_sub _ _ _ _
theorem setI (nnn : Addr12) : Statement (.setI nnn) := masked_packNnn _ _
theorem jumpV0 (nnn : Addr12) : Statement (.jumpV0 nnn) := masked_packNnn _ _
theorem rand (x : RegIdx) (kk : Byte) : Statement (.rand x kk) := masked_packXkk _ _ _
theorem draw (x : RegIdx) (y : RegIdx) (n : Nibble) : Statement (.draw x y n) := masked_packXyn _ _ _ _
theorem skipKeyPressed (x : RegIdx) : Statement (.skipKeyPressed x) := masked_packXkk_sub _ _ _
theorem skipKeyNotPressed (x : RegIdx) : Statement (.skipKeyNotPressed x) := masked_packXkk_sub _ _ _
theorem setRegFromDelay (x : RegIdx) : Statement (.setRegFromDelay x) := masked_packXkk_sub _ _ _
theorem waitKey (x : RegIdx) : Statement (.waitKey x) := masked_packXkk_sub _ _ _
theorem setDelay (x : RegIdx) : Statement (.setDelay x) := masked_packXkk_sub _ _ _
theorem setSound (x : RegIdx) : Statement (.setSound x) := masked_packXkk_sub _ _ _
theorem addToI (x : RegIdx) : Statement (.addToI x) := masked_packXkk_sub _ _ _
theorem setIToFontAddr (x : RegIdx) : Statement (.setIToFontAddr x) := masked_packXkk_sub _ _ _
theorem storeBCD (x : RegIdx) : Statement (.storeBCD x) := masked_packXkk_sub _ _ _
theorem regDump (x : RegIdx) : Statement (.regDump x) := masked_packXkk_sub _ _ _
theorem regLoad (x : RegIdx) : Statement (.regLoad x) := masked_packXkk_sub _ _ _

end Sys2Proof.Laws.KeepsPattern
end

