-- ==== Sys2Proof/Laws/Run.lean ====
section
/-! SUPPORT. Runs of several steps, and the step split into its cases. -/

namespace Sys2Proof.Machine

/-- A run of no step. -/
theorem run_zero (s : State) : Host.Core.run Sys2Proof.core 0 s = .next s := rfl

/-- A run goes on from the state its first step answers. -/
theorem run_succ {s t : State} (k : Nat) (h : step s = .next t) :
    Host.Core.run Sys2Proof.core (k + 1) s = Host.Core.run Sys2Proof.core k t := by
  have general : ∀ (M : Host.Core) (a b : M.State), M.step a = .next b → M.run (k + 1) a = M.run k b := by
    intro M a b hab; simp [Host.Core.run, hab]
  exact general Sys2Proof.core s t h

/-- The two ways to write the state after stage 2 of a step. -/
theorem beginStep_eq_ticked (s : State) : beginStep s = ticked s := by
  have h : ∀ b : Byte, countDown b = BitVec.ofNat 8 (b.toNat - 1) := by
    intro b
    apply BitVec.eq_of_toNat_eq
    have := b.isLt
    rw [countDown_toNat, BitVec.toNat_ofNat]
    omega
  simp [ticked, beginStep, tick, h]

/-- Everything a step can be: nothing on a halted core, a poll while waiting, a fetch fault, a decode fault, or the execution of the
fetched instruction. -/
theorem step_cases (s : State) :
    (s.halt ≠ none ∧ step s = .next s) ∨
    (s.halt = none ∧ ∃ x, s.wait = some x ∧ step s = .next (pollWait s x)) ∨
    (s.ready ∧ fetchBytes s = none ∧ step s = .next (raise (ticked s) s.pc (.fetchBounds s.pc))) ∨
    (s.ready ∧ ∃ hi lo w, fetchBytes s = some (hi, lo) ∧ decode hi lo = .illegal w ∧
      step s = .next (raise (ticked s) s.pc (.decodeError w))) ∨
    (s.ready ∧ ∃ i, fetchedInstr s = some i ∧ step s = exec i (advance (ticked s))) := by
  have hf : fetchBytes (ticked s) = fetchBytes s := rfl
  have hpc : (ticked s).pc = s.pc := rfl
  unfold step
  cases hh : s.halt with
  | some r => exact .inl ⟨by simp, rfl⟩
  | none =>
    refine .inr ?_
    cases hw : s.wait with
    | some x => exact .inl ⟨rfl, x, rfl, rfl⟩
    | none =>
      refine .inr ?_
      simp only [beginStep_eq_ticked, hf, hpc]
      cases hb : fetchBytes s with
      | none => exact .inl ⟨⟨hh, hw⟩, rfl, rfl⟩
      | some bytes =>
        obtain ⟨hi, lo⟩ := bytes
        refine .inr ?_
        cases hd : decode hi lo with
        | illegal w => exact .inl ⟨⟨hh, hw⟩, hi, lo, w, rfl, hd, by simp only [hd]⟩
        | instr i => exact .inr ⟨⟨hh, hw⟩, i, by simp only [fetchedInstr, hb, hd], by simp only [hd]⟩

end Sys2Proof.Machine
end

