-- ==== Sys2Proof/Tests/Slice0.lean ====
section
/-! SUPPORT. The model's own tests: ill-formed parameters refused, words written out and decoded, single steps on small states,
and for every statement with hypotheses a state that meets them. The expected values of the decode and step tests stand in
95_test_vectors.md or follow from a rule named at the test, never from a run of the model. -/

namespace Sys2Proof.Tests

open Sys2Proof Sys2Proof.Machine

/-! ## Well-formedness: each check refuses an ill-formed term -/

theorem test_standard_parameters_well_formed : Config.standard.wellFormed := by decide

theorem test_no_columns_refused :
    ¬ Config.hasColumns { Config.standard with fbW := 0 } ∧ ¬ Config.wellFormed { Config.standard with fbW := 0 } := by
  decide

theorem test_no_rows_refused :
    ¬ Config.hasRows { Config.standard with fbH := 0 } ∧ ¬ Config.wellFormed { Config.standard with fbH := 0 } := by
  decide

/-- Cells out of order. -/
theorem test_unordered_fbInit_refused : ¬ Config.wellFormed { Config.standard with fbInit := [⟨0, 1⟩, ⟨5, 0⟩] } := by decide

/-- A cell twice. -/
theorem test_repeated_fbInit_refused : ¬ Config.wellFormed { Config.standard with fbInit := [⟨5, 0⟩, ⟨5, 0⟩] } := by decide

/-- A cell one column beyond the grid, and one row beyond it. -/
theorem test_offGrid_fbInit_refused :
    ¬ Config.wellFormed { Config.standard with fbInit := [⟨64, 0⟩] } ∧
    ¬ Config.wellFormed { Config.standard with fbInit := [⟨0, 32⟩] } ∧
    Config.wellFormed { Config.standard with fbInit := [⟨63, 31⟩] } := by decide

/-- The check on operands, on the values a type of the field's width cannot hold. -/
theorem test_operand_too_wide_refused :
    (([(16, 4)] : List (Nat × Nat)).all fun (value, width) => decide (value < 2 ^ width)) = false ∧
    (Instr.draw 15 15 15).wellFormed = true ∧ (Instr.goto 0xFFF).wellFormed = true := by decide

/-! ## Decoding: every constructor, from the pattern of its rule R80 to R113 -/

theorem test_decode_control_flow :
    decode 0x00 0xEE = .instr .ret ∧ decode 0x12 0x34 = .instr (.goto 0x234) ∧ decode 0x2F 0xED = .instr (.call 0xFED) ∧
    decode 0x3A 0x08 = .instr (.skipEqConst 0xA 0x08) ∧ decode 0x43 0x10 = .instr (.skipNeqConst 0x3 0x10) ∧
    decode 0x51 0x20 = .instr (.skipEqReg 0x1 0x2) ∧ decode 0x9C 0xD0 = .instr (.skipNeqReg 0xC 0xD) ∧
    decode 0xBF 0xFF = .instr (.jumpV0 0xFFF) := by decide

theorem test_decode_moves_and_logic :
    decode 0x6A 0x42 = .instr (.setConst 0xA 0x42) ∧ decode 0x7F 0xF0 = .instr (.addConst 0xF 0xF0) ∧
    decode 0x81 0x20 = .instr (.setReg 0x1 0x2) ∧ decode 0x83 0x41 = .instr (.orReg 0x3 0x4) ∧
    decode 0x85 0x62 = .instr (.andReg 0x5 0x6) ∧ decode 0x87 0x83 = .instr (.xorReg 0x7 0x8) ∧
    decode 0xC3 0x0F = .instr (.rand 0x3 0x0F) := by decide

theorem test_decode_arithmetic :
    decode 0x8A 0xB4 = .instr (.addReg 0xA 0xB) ∧ decode 0x81 0x25 = .instr (.subReg 0x1 0x2) ∧
    decode 0x81 0xF6 = .instr (.shiftRight 0x1 0xF) ∧ decode 0x89 0xE7 = .instr (.subRegRev 0x9 0xE) ∧
    decode 0x8F 0x0E = .instr (.shiftLeft 0xF 0x0) := by decide

theorem test_decode_index_and_memory :
    decode 0xA1 0x23 = .instr (.setI 0x123) ∧ decode 0xF2 0x1E = .instr (.addToI 0x2) ∧
    decode 0xF2 0x29 = .instr (.setIToFontAddr 0x2) ∧ decode 0xF7 0x33 = .instr (.storeBCD 0x7) ∧
    decode 0xF3 0x55 = .instr (.regDump 0x3) ∧ decode 0xFF 0x65 = .instr (.regLoad 0xF) := by decide

theorem test_decode_display_keys_timers :
    decode 0x00 0xE0 = .instr .clearScreen ∧ decode 0xD1 0x25 = .instr (.draw 0x1 0x2 0x5) ∧
    decode 0xE5 0x9E = .instr (.skipKeyPressed 0x5) ∧ decode 0xE5 0xA1 = .instr (.skipKeyNotPressed 0x5) ∧
    decode 0xF3 0x0A = .instr (.waitKey 0x3) ∧ decode 0xF1 0x07 = .instr (.setRegFromDelay 0x1) ∧
    decode 0xF0 0x15 = .instr (.setDelay 0x0) ∧ decode 0xF0 0x18 = .instr (.setSound 0x0) := by decide

/-- The illegal words of 95_test_vectors.md 2.6. -/
theorem test_decode_illegal :
    decode 0x51 0x21 = .illegal 0x5121 ∧ decode 0x91 0x28 = .illegal 0x9128 ∧ decode 0x81 0x28 = .illegal 0x8128 ∧
    decode 0x81 0x2F = .illegal 0x812F ∧ decode 0x01 0x23 = .illegal 0x0123 ∧ decode 0x00 0x00 = .illegal 0x0000 ∧
    decode 0x00 0xE1 = .illegal 0x00E1 ∧ decode 0xE1 0x9F = .illegal 0xE19F ∧ decode 0xF0 0xFF = .illegal 0xF0FF ∧
    decode 0xFF 0xFF = .illegal 0xFFFF := by decide

theorem test_decodeTableWord : decodeTableWord 16 0x8AB4 = some (.addReg 0xA 0xB) ∧ decodeTableWord 16 0xFFFF = none := by
  decide

theorem test_encode : encode (.addReg 0xA 0xB) = 0x8AB4 ∧ encode (.skipEqConst 0xA 0x08) = 0x3A08 := by decide

/-! ## Single steps -/

/-- The reset state changed by `f`, with the word `w` where the next step fetches. -/
def start (w : Nat) (f : State → State := id) : State := (f State.reset).withFetchWord 16 w

/-- `s` with registers set. -/
def withV (regs : List (RegIdx × Byte)) (s : State) : State := regs.foldl (fun t r => writeV t r.1 r.2) s

/-- `s` with `I` at 0x300, bytes from there, and registers set. -/
def withBlock (bytes : List Byte) (regs : List (RegIdx × Byte)) (s : State) : State :=
  { withV regs (storeBytes s 0x300 bytes) with i := 0x300 }

/-- What `look` sees after one step on the word `w`. -/
def after {α : Type} (w : Nat) (f : State → State) (look : State → α) : Option α :=
  match step (start w f) with
  | .next t => some (look t)
  | .fault _ => none
  | .refused _ => none

/-- `PC` and some registers. -/
def pcAnd (regs : List RegIdx) (s : State) : Addr × List Byte := (s.pc, regs.map (readV s))

/-- `PC` and `HALT`. -/
def pcHalt (s : State) : Addr × Option HaltRecord := (s.pc, s.halt)

/-- Every row's word (operand bits 0) decodes to its own row, and the first step after reset runs it. -/
theorem test_every_row_runs_first :
    (opcodeTable.all fun row =>
      (decodeTableWord 16 row.1.toNat).map Instr.pattern = some row ∧ (after row.1.toNat id fun _ => ()) = some ()) = true := by
  decide

/-! Control flow (95_test_vectors.md 2.1). -/

theorem test_goto : after 0x1234 id pcHalt = some (0x234, none) := by decide

theorem test_call : after 0x2400 id (fun t => (t.pc, t.sp, t.stack[0])) = some (0x400, 1, 0x202) := by decide

theorem test_call_full_stack :
    after 0x2400 (fun s => { s with sp := 256 }) pcHalt = some (0x200, some ⟨.stackOverflow, 0x200⟩) := by decide

theorem test_return :
    after 0x00EE (fun s => { s with sp := 1, stack := s.stack.set 0 0x206 }) (fun t => (t.pc, t.sp, t.stack[0])) =
      some (0x206, 0, 0x206) := by decide

theorem test_return_empty_stack : after 0x00EE id pcHalt = some (0x200, some ⟨.stackUnderflow, 0x200⟩) := by decide

theorem test_skipEqConst :
    after 0x3310 (withV [(3, 0x10)]) State.pc = some 0x204 ∧ after 0x3310 (withV [(3, 0x11)]) State.pc = some 0x202 := by
  decide

theorem test_skipEqConst_over_the_end : after 0x3000 (fun s => { s with pc := 0xFFC }) pcHalt = some (0x1000, none) := by
  decide

theorem test_skipNeqConst :
    after 0x4310 (withV [(3, 0x10)]) State.pc = some 0x202 ∧ after 0x4310 (withV [(3, 0x11)]) State.pc = some 0x204 := by
  decide

theorem test_skipEqReg :
    after 0x5120 (withV [(1, 7), (2, 7)]) State.pc = some 0x204 ∧
    after 0x5120 (withV [(1, 7), (2, 8)]) State.pc = some 0x202 := by decide

theorem test_skipNeqReg :
    after 0x9120 (withV [(1, 7), (2, 7)]) State.pc = some 0x202 ∧
    after 0x9120 (withV [(1, 7), (2, 8)]) State.pc = some 0x204 := by decide

theorem test_jumpV0 : after 0xB300 (withV [(0, 0x10)]) State.pc = some 0x310 := by decide

theorem test_jumpV0_past_memory : after 0xBFFF (withV [(0, 0xFF)]) pcHalt = some (0x10FE, none) := by decide

/-! Arithmetic and logic (95_test_vectors.md 2.2 and section 1). -/

theorem test_setConst : after 0x6A42 id (pcAnd [0xA, 0x4]) = some (0x202, [0x42, 0]) := by decide

theorem test_addConst_wraps_without_flag : after 0x7401 (withV [(4, 0xFF)]) (pcAnd [4, 15]) = some (0x202, [0, 0]) := by
  decide

theorem test_addConst_vf : after 0x7FF0 (withV [(15, 0x10)]) (pcAnd [15]) = some (0x202, [0]) := by decide

theorem test_setReg : after 0x8120 (withV [(1, 0x11), (2, 0x22)]) (pcAnd [1, 2]) = some (0x202, [0x22, 0x22]) := by decide

theorem test_or_keeps_vf :
    after 0x8121 (withV [(1, 0x01), (2, 0x02), (15, 0x77)]) (pcAnd [1, 15]) = some (0x202, [0x03, 0x77]) := by decide

theorem test_and : after 0x8122 (withV [(1, 0x3C), (2, 0x0F)]) (pcAnd [1, 2]) = some (0x202, [0x0C, 0x0F]) := by decide

theorem test_xor : after 0x8123 (withV [(1, 0xFF), (2, 0x0F)]) (pcAnd [1, 2]) = some (0x202, [0xF0, 0x0F]) := by decide

theorem test_addReg : after 0x8124 (withV [(1, 75), (2, 240)]) (pcAnd [1, 15]) = some (0x202, [59, 1]) := by decide

theorem test_addReg_flag_last : after 0x8FE4 (withV [(15, 0x80), (14, 0x90)]) (pcAnd [14, 15]) = some (0x202, [0x90, 1]) := by
  decide

theorem test_subReg : after 0x8125 (withV [(1, 5), (2, 45)]) (pcAnd [1, 2, 15]) = some (0x202, [216, 45, 0]) := by decide

theorem test_subReg_equal : after 0x8125 (withV [(1, 0x10), (2, 0x10)]) (pcAnd [1, 15]) = some (0x202, [0, 1]) := by decide

theorem test_subRegRev :
    after 0x8127 (withV [(1, 0x05), (2, 0x2D)]) (pcAnd [1, 2, 15]) = some (0x202, [0x28, 0x2D, 1]) := by decide

theorem test_subRegRev_borrow : after 0x8127 (withV [(1, 1), (2, 0)]) (pcAnd [1, 15]) = some (0x202, [0xFF, 0]) := by decide

/-- The `y` field names `VF` and is ignored. -/
theorem test_shiftRight : after 0x81F6 (withV [(1, 0x81)]) (pcAnd [1, 15]) = some (0x202, [0x40, 1]) := by decide

theorem test_shiftRight_vf : after 0x8F06 (withV [(15, 0x03)]) (pcAnd [15]) = some (0x202, [1]) := by decide

theorem test_shiftLeft : after 0x810E (withV [(1, 0xB7)]) (pcAnd [1, 15]) = some (0x202, [0x6E, 1]) := by decide

theorem test_shiftLeft_vf : after 0x8F0E (withV [(15, 0x40)]) (pcAnd [15]) = some (0x202, [0]) := by decide

theorem test_rand :
    after 0xC30F (fun s => { s with rands := ⟨[0xA7], 0⟩ }) (pcAnd [3]) = some (0x202, [0x07]) := by decide

/-- Every byte is masked away, and one byte is still drawn. -/
theorem test_rand_zero_mask :
    after 0xC300 (fun s => { s with rands := ⟨[0xA7], 0⟩ }) (fun t => (readV t 3, t.rands.drawn)) = some (0, 1) := by decide

/-! Index register and memory (95_test_vectors.md 2.3). -/

theorem test_setI : after 0xA123 id (fun t => (t.pc, t.i)) = some (0x202, 0x123) := by decide

theorem test_addToI_wraps :
    after 0xF21E (fun s => { withV [(2, 2)] s with i := 0xFFFF }) (fun t => (t.i, readV t 15)) = some (1, 0) := by decide

theorem test_setIToFontAddr_not_masked : after 0xF229 (withV [(2, 0xFF)]) State.i = some 0x4FB := by decide

theorem test_storeBCD :
    after 0xF733 (withBlock [9, 9, 9, 9] [(7, 184)]) (fun t => (t.i, t.mem.drop 2)) =
      some (0x300, [(0x300, 1), (0x301, 8), (0x302, 4), (0x303, 9)]) := by decide

theorem test_storeBCD_out_of_range :
    after 0xFA33 (fun s => { withV [(0xA, 0xFF)] s with i := 0xFFE })
      (fun t => (pcHalt t, memByte t 0xFFE, memByte t 0xFFF)) =
      some ((0x200, some ⟨.memBounds 0x1000, 0x200⟩), 0, 0) := by decide

theorem test_regDump_last_byte :
    after 0xF055 (fun s => { withV [(0, 0x5A)] s with i := 0xFFF }) (fun t => (t.pc, t.i, memByte t 0xFFF)) =
      some (0x202, 0xFFF, 0x5A) := by decide

theorem test_regDump_out_of_range :
    after 0xF155 (fun s => { withV [(0, 0x5A)] s with i := 0xFFF }) (fun t => (pcHalt t, memByte t 0xFFF)) =
      some ((0x200, some ⟨.memBounds 0x1000, 0x200⟩), 0) := by decide

theorem test_regLoad :
    after 0xF365 (withBlock [0x11, 0x22, 0x33, 0x44, 0x55] [(4, 0x99)]) (pcAnd [0, 1, 2, 3, 4]) =
      some (0x202, [0x11, 0x22, 0x33, 0x44, 0x99]) := by decide

theorem test_regLoad_out_of_range :
    after 0xF265 (fun s => { withV [(0, 0x5A)] s with i := 0xFFE }) (fun t => (pcHalt t, readV t 0)) =
      some ((0x200, some ⟨.memBounds 0x1000, 0x200⟩), 0x5A) := by decide

/-! Display (95_test_vectors.md 2.4). -/

theorem test_clearScreen : after 0x00E0 (fun s => { s with fb := [⟨3, 4⟩, ⟨5, 6⟩] }) State.fb = some [] := by decide

theorem test_draw_leftmost_bit_first :
    after 0xD121 (withBlock [0x81] [(1, 8), (2, 3), (15, 7)]) (fun t => (t.fb, readV t 15)) =
      some ([⟨8, 3⟩, ⟨15, 3⟩], 0) := by decide

theorem test_draw_collision :
    after 0xD121 (fun s => { withBlock [0xC0] [] s with fb := [⟨0, 0⟩, ⟨1, 0⟩] }) (fun t => (t.fb, readV t 15)) =
      some ([], 1) := by decide

theorem test_draw_clip : after 0xD011 (withBlock [0xFF] [(0, 0x3E)]) State.fb = some [⟨62, 0⟩, ⟨63, 0⟩] := by decide

theorem test_draw_wrap :
    after 0xD011 (fun s => { withBlock [0xFF] [(0, 0x3E)] s with cfg := { s.cfg with offGrid := .wrap } }) State.fb =
      some [⟨0, 0⟩, ⟨1, 0⟩, ⟨2, 0⟩, ⟨3, 0⟩, ⟨4, 0⟩, ⟨5, 0⟩, ⟨62, 0⟩, ⟨63, 0⟩] := by decide

theorem test_draw_fault :
    after 0xD011 (fun s => { withBlock [0xFF] [(0, 0x3E)] s with cfg := { s.cfg with offGrid := .fault } })
      (fun t => (pcHalt t, t.fb)) = some ((0x200, some ⟨.fbBounds 64 0, 0x200⟩), []) := by decide

/-! Keys and timers (95_test_vectors.md 2.5). -/

/-- `s` with one queued answer of `KeyPeek()`. -/
def withPeek (k : Option Key) (s : State) : State := { s with peeks := ⟨[k], 0⟩ }

theorem test_skipKeyPressed :
    after 0xE59E (fun s => withPeek (some 0xA) (withV [(5, 0x0A)] s)) State.pc = some 0x204 ∧
    after 0xE59E (fun s => withPeek (some 0x3) (withV [(5, 0x0A)] s)) State.pc = some 0x202 := by decide

theorem test_skipKeyPressed_whole_byte :
    after 0xE59E (fun s => withPeek (some 0xA) (withV [(5, 0x1A)] s)) State.pc = some 0x202 := by decide

theorem test_skipKeyNotPressed :
    after 0xE5A1 (fun s => withPeek (some 0xA) (withV [(5, 0x0A)] s)) State.pc = some 0x202 ∧
    after 0xE5A1 (fun s => withPeek none (withV [(5, 0x0A)] s)) State.pc = some 0x204 := by decide

theorem test_waitKey :
    after 0xF30A (fun s => { s with dt := 5, waits := ⟨[some 7], 0⟩ }) (fun t => (t.pc, readV t 3, t.dt, t.wait)) =
      some (0x202, 7, 4, none) := by decide

theorem test_waitKey_no_key_yet :
    after 0xF30A (fun s => { s with waits := ⟨[none, some 7], 0⟩ }) (fun t => (t.pc, readV t 3, t.wait)) =
      some (0x202, 0, some 3) := by decide

theorem test_setRegFromDelay : after 0xF107 (fun s => { s with dt := 5 }) (fun t => (readV t 1, t.dt)) = some (4, 4) := by decide

theorem test_setDelay_overwrites : after 0xF015 (fun s => { withV [(0, 3)] s with dt := 9 }) State.dt = some 3 := by decide

theorem test_setSound : after 0xF018 (withV [(0, 0x20)]) State.st = some 0x20 := by decide

/-! Decode and faults (95_test_vectors.md 2.6). -/

theorem test_tick_before_fault :
    after 0xFFFF (fun s => { s with dt := 2 }) (fun t => (t.dt, pcHalt t)) =
      some (1, 0x200, some ⟨.decodeError 0xFFFF, 0x200⟩) := by decide

theorem test_timers_stop_at_zero : after 0x6000 (fun s => { s with dt := 1 }) (fun t => (t.dt, t.st)) = some (0, 0) := by decide

/-- The very first step from reset: memory is 0 at 0x200, so DecodeError on the word 0x0000 (70_reset_and_hazards.md R203). -/
theorem test_first_step_after_reset :
    (match step State.reset with
     | .next t => some (pcHalt t)
     | .fault _ => none
     | .refused _ => none) = some (0x200, some ⟨.decodeError 0x0000, 0x200⟩) := by decide

/-! ## Witnesses: states and operands that meet the hypotheses of a statement together, clause by clause -/

/-- The state of a step's stage 6 on the reset state, changed by `f`: `PC` past the instruction. -/
def stage6 (f : State → State := id) : State := { f State.reset with pc := 0x202 }

theorem witness_DecodeOfEncodeIsTheInstruction :
    (Instr.draw 0xF 0xF 0xF).wellFormed = true ∧ (Instr.call 0xFFF).wellFormed = true := by decide

theorem witness_EncodeOfDecodedIsTheWord : decode 0xDF 0xFF = .instr (.draw 0xF 0xF 0xF) := by decide

theorem witness_DecodeMatchesExactlyOnePattern :
    decode 0x8F 0xFE = .instr (.shiftLeft 0xF 0xF) ∧ decode 0x8F 0xFF = .illegal 0x8FFF := by decide

/-- The last word that can be fetched. -/
theorem witness_StepRunsTheDecodedInstruction :
    let s := start 0x6A42 fun s => { s with pc := 0xFFE }
    s.ready ∧ s.pc.toNat + 1 < 4096 ∧
      decode (memByte s s.pc.toNat) (memByte s (s.pc.toNat + 1)) = .instr (.setConst 0xA 0x42) := by decide

/-- The first `PC` no word can be fetched at, and an illegal word at the last one that can. -/
theorem witness_FetchAndDecodeFaultsHalt :
    (let s : State := { State.reset with pc := 0xFFF }
     s.ready ∧ 4096 ≤ s.pc.toNat + 1) ∧
    (let s := start 0xFFFF fun s => { s with pc := 0xFFE }
     s.ready ∧ s.pc.toNat + 1 < 4096 ∧ decode (memByte s s.pc.toNat) (memByte s (s.pc.toNat + 1)) = .illegal 0xFFFF) := by
  decide

theorem witness_HaltedCoreNeverChanges : { State.reset with halt := some ⟨.stackUnderflow, 0x200⟩ }.halt ≠ none := by decide

theorem witness_StepFaultIsPrecise :
    ∃ (s t : State) (r : HaltRecord), s.ready ∧ step s = .next t ∧ t.halt = some r :=
  ⟨start 0x00EE, _, ⟨.stackUnderflow, 0x200⟩, by decide, rfl, by decide⟩

/-- Each of the four causes. -/
theorem witness_FaultsHaveTheListedCauses :
    (∃ (s t : State) (r : HaltRecord), s.halt = none ∧ exec (.regDump 1) s = .next t ∧ t.halt = some r) ∧
    (∃ (s t : State) (r : HaltRecord), s.halt = none ∧ exec (.call 0) s = .next t ∧ t.halt = some r) ∧
    (∃ (s t : State) (r : HaltRecord), s.halt = none ∧ exec .ret s = .next t ∧ t.halt = some r) ∧
    (∃ (s t : State) (r : HaltRecord), s.halt = none ∧ exec (.draw 0 1 1) s = .next t ∧ t.halt = some r) :=
  ⟨⟨stage6 fun s => { s with i := 0xFFF }, _, ⟨.memBounds 4096, 0x200⟩, by decide, rfl, by decide⟩,
   ⟨stage6 fun s => { s with sp := 256 }, _, ⟨.stackOverflow, 0x200⟩, by decide, rfl, by decide⟩,
   ⟨stage6, _, ⟨.stackUnderflow, 0x200⟩, by decide, rfl, by decide⟩,
   ⟨stage6 fun s => { withV [(0, 57)] s with cfg := { s.cfg with offGrid := .fault } }, _, ⟨.fbBounds 64 0, 0x200⟩,
    by decide, rfl, by decide⟩⟩

/-- One byte too many, and a block wholly outside. -/
theorem witness_BlockOutsideMemoryFaultsBeforeAnyWrite :
    (let s := stage6 fun s => { s with i := 0xFFE }
     0 < (Instr.storeBCD 0).blockLength ∧ 4096 < s.i.toNat + (Instr.storeBCD 0).blockLength) ∧
    (let s := stage6 fun s => { s with i := 0xFFFF }
     0 < (Instr.regLoad 0).blockLength ∧ 4096 < s.i.toNat + (Instr.regLoad 0).blockLength) := by decide

/-- A step that fetches neither SetDelay nor SetSound. -/
theorem witness_TimersFallByOneInEveryStep :
    ∃ s t : State, s.ready ∧ step s = .next t ∧
      (∀ x, fetchedInstr s ≠ some (.setDelay x)) ∧ ∀ x, fetchedInstr s ≠ some (.setSound x) :=
  ⟨start 0x6000 fun s => { s with dt := 1 }, _, by decide, rfl, by decide, by decide⟩

theorem witness_IndexRegisterWrittenByThreeOnly :
    ∃ (i : Instr) (s t : State), exec i s = .next t ∧ (∀ nnn, i ≠ .setI nnn) ∧ (∀ x, i ≠ .addToI x) ∧
      ∀ x, i ≠ .setIToFontAddr x :=
  ⟨.regDump 3, stage6, _, rfl, nofun, nofun, nofun⟩

theorem witness_StackWrittenByCallAndReturnOnly :
    (∃ s t : State, exec .ret s = .next t ∧ ∀ nnn, Instr.ret ≠ .call nnn) ∧
    ∃ s t : State, exec (.goto 0) s = .next t ∧ (∀ nnn, Instr.goto 0 ≠ .call nnn) ∧ Instr.goto 0 ≠ .ret :=
  ⟨⟨stage6 fun s => { s with sp := 256 }, _, rfl, nofun⟩, ⟨stage6, _, rfl, nofun, nofun⟩⟩

theorem witness_RegistersWrittenOnlyWhereListed :
    ∃ (s t : State), exec (.regLoad 14) s = .next t ∧ ¬ (Instr.regLoad 14).mayWrite vf :=
  ⟨stage6, _, rfl, show ¬ vf.toNat ≤ (14 : RegIdx).toNat by decide⟩

/-- The byte right behind the stored block. -/
theorem witness_MemoryWrittenOnlyInTheStoredBlock :
    ∃ (s t : State) (a : Nat), exec (.storeBCD 0) s = .next t ∧
      ¬ (s.i.toNat ≤ a ∧ a < s.i.toNat + (Instr.storeBCD 0).storedLength) :=
  ⟨stage6 fun s => { s with i := 0x300 }, _, 0x303, rfl, by decide⟩

theorem witness_DevicesTouchedByTheirInstructionsOnly :
    ∃ (i : Instr) (s t : State), exec i s = .next t ∧ (∀ x, i ≠ .setDelay x) ∧ (∀ x, i ≠ .setSound x) ∧ i ≠ .clearScreen ∧
      (∀ x y n, i ≠ .draw x y n) ∧ (∀ x kk, i ≠ .rand x kk) ∧ (∀ x, i ≠ .skipKeyPressed x) ∧
      (∀ x, i ≠ .skipKeyNotPressed x) ∧ ∀ x, i ≠ .waitKey x :=
  ⟨.addReg 1 2, stage6, _, rfl, nofun, nofun, nofun, nofun, nofun, nofun, nofun, nofun⟩

/-- A state with listed memory and lit cells that has the invariant, and a step from it. -/
theorem witness_InvariantKeptByEveryStep : ∃ s t : State, s.Inv ∧ step s = .next t :=
  ⟨{ start 0xD011 with fb := [⟨0, 0⟩, ⟨63, 31⟩] }, _, ⟨by decide, by decide, by decide, by decide, by decide⟩, rfl⟩

/-- Parameters other than the defaults, and a loadable state that has the invariant. -/
theorem witness_InvariantHoldsAfterResetAndLoad :
    Config.wellFormed { Config.standard with fbW := 1, fbH := 1, fbInit := [⟨0, 0⟩], offGrid := .wrap } ∧
    ∃ s t : State, s.Inv ∧ load [0x12, 0x00] s = .next t :=
  ⟨by decide, State.reset, _, ⟨by decide, by decide, by decide, by decide, by decide⟩, rfl⟩

theorem witness_EqualReadingIsEqualData :
    (Memory.wf Config.standard [(0x000, 0x00), (0xFFF, 0xFF)] ∧
      ∀ a, readCell Config.standard [(0x000, 0x00), (0xFFF, 0xFF)] a =
        readCell Config.standard [(0x000, 0x00), (0xFFF, 0xFF)] a) ∧
    Config.standard.canonicalCells [⟨0, 0⟩, ⟨63, 31⟩] := ⟨⟨by decide, fun _ => rfl⟩, by decide⟩

theorem witness_ParkedCoreOnlyTicks : (start 0x1200).parked := by decide

/-- The word at `PC` ends at the last byte of memory. -/
theorem witness_NextFetchSeesTheDumpedWord :
    let s : State := { State.reset with pc := 0xFFE, i := 0xFFE }
    1 ≤ (1 : RegIdx).toNat ∧ s.i.toNat + (1 : RegIdx).toNat < 4096 ∧ s.pc = s.i := by decide

/-- A Call on the last free level, whose target is a Return at once. -/
theorem witness_ReturnGoesBackBehindItsCall :
    ∃ s t : State, s.ready ∧ fetchedInstr s = some (.call 0x300) ∧ s.sp.val < 256 ∧ step s = .next t ∧
      (∀ m ≤ 0, ∃ w : State, Host.Core.run Sys2Proof.core m t = .next w ∧ s.sp.val < w.sp.val) ∧
      Host.Core.run Sys2Proof.core 0 t = .next t ∧ t.sp.val = s.sp.val + 1 ∧ t.ready ∧ fetchedInstr t = some .ret :=
  ⟨start 0x2300 fun s => { storeBytes s 0x300 [0x00, 0xEE] with sp := 255 }, _, by decide, by decide, by decide, rfl,
   fun m hm => by obtain rfl := Nat.le_zero.1 hm; exact ⟨_, rfl, by decide⟩, rfl, by decide, by decide, by decide⟩

theorem witness_CallPushesTheAdvancedPc :
    (stage6 fun s => { s with sp := 255 }).sp.val < 256 ∧ (stage6 fun s => { s with sp := 256 }).sp.val = 256 := by decide

theorem witness_ReturnPopsThePc :
    (stage6 fun s => { s with sp := 256 }).sp.val = 255 + 1 ∧ stage6.sp.val = 0 := by decide

/-- A destination other than `VF`, for the statements about flags. -/
theorem witness_AddRegWrapsAndSetsCarry : (14 : RegIdx) ≠ vf := by decide

theorem witness_SubtractionsWrapAndSetNotBorrow : (14 : RegIdx) ≠ vf := by decide

theorem witness_ShiftsMoveOneBitIntoVf : (14 : RegIdx) ≠ vf := by decide

/-- The first and the last k of the shift left. -/
theorem witness_RepeatedShiftsEvictOneBitEach : (14 : RegIdx) ≠ vf ∧ 0 < 8 ∧ 7 < 8 := by decide

theorem witness_RandMasksOneDrawnByte : (stage6 fun s => { s with rands := ⟨[0xA7], 0⟩ }).rands.queued = 0xA7 :: [] := by
  decide

/-- The last place three bytes fit, with the number of the spec's example. -/
theorem witness_StoreBCDWritesTheDecimalDigits :
    let s := stage6 fun s => { withV [(7, 184)] s with i := 0xFFD }
    s.i.toNat + 3 ≤ 4096 ∧ readV s 7 = 184 := by decide

/-- All sixteen registers at the last place they fit, and one register at the last byte. -/
theorem witness_RegDumpStoresTheRegisters :
    (stage6 fun s => { s with i := 0xFF0 }).i.toNat + (15 : RegIdx).toNat < 4096 ∧
    (stage6 fun s => { s with i := 0xFFF }).i.toNat + (0 : RegIdx).toNat < 4096 := by decide

theorem witness_RegLoadLoadsTheRegisters :
    (stage6 fun s => { s with i := 0xFF0 }).i.toNat + (15 : RegIdx).toNat < 4096 ∧
    (stage6 fun s => { s with i := 0xFFF }).i.toNat + (0 : RegIdx).toNat < 4096 := by decide

theorem witness_DumpThenLoadRestoresTheRegisters :
    (stage6 fun s => { s with i := 0xFF1 }).i.toNat + (14 : RegIdx).toNat < 4096 := by decide

/-- Under `fault`, a sprite on the last bytes of memory and the last columns and row; and n = 0 with `I` outside memory. -/
theorem witness_DrawXorsTheSpriteOntoTheGrid :
    (let s := stage6 fun s => { withV [(1, 56), (2, 31)] s with i := 0xFFF, cfg := { s.cfg with offGrid := .fault } }
     spriteInMemory s 1 ∧ (s.cfg.offGrid = .fault → boxOnGrid s 1 2 1)) ∧
    (let s := stage6 fun s => { s with i := 0xFFFF }
     spriteInMemory s 0 ∧ (s.cfg.offGrid = .fault → boxOnGrid s 1 2 0)) := by decide

/-- A wide sprite under `wrap` on a screen of one cell, where all its visits stand for that cell. -/
theorem witness_DrawFlagIsTheCollisionInVisitingOrder :
    ∃ s t : State, spriteInMemory s 1 ∧ (s.cfg.offGrid = .fault → boxOnGrid s 0 1 1) ∧ exec (.draw 0 1 1) s = .next t :=
  ⟨stage6 fun s => { withBlock [0xFF] [] s with cfg := { s.cfg with fbW := 1, fbH := 1, offGrid := .wrap } }, _,
   by decide, by decide, rfl⟩

/-- The last box on the grid. -/
theorem witness_DrawCollidesIffALitCellIsHit :
    let s := stage6 (withBlock [0xFF, 0x81] [(0, 56), (1, 30)])
    spriteInMemory s 2 ∧ boxOnGrid s 0 1 2 := by decide

theorem witness_DrawingTwiceRestoresTheScreen :
    let s := stage6 fun s => { withBlock [0xFF, 0x81] [(0, 56), (1, 30)] s with fb := [⟨56, 30⟩, ⟨63, 31⟩] }
    spriteInMemory s 2 ∧ boxOnGrid s 0 1 2 ∧ s.cfg.canonicalCells s.fb := by decide

/-- Two sprites in one box that share no cell under their 1 bits, on an empty screen. -/
theorem witness_DisjointSpritesNeverCollide :
    ∃ s s' t u : State,
      boxOnGrid s 0 1 1 ∧ boxOnGrid s' 0 1 1 ∧ spriteInMemory s 1 ∧ spriteInMemory s' 1 ∧
      exec (.draw 0 1 1) s = .next t ∧ s'.fb = t.fb ∧ s'.cfg = t.cfg ∧ exec (.draw 0 1 1) s' = .next u ∧
      (∀ k < 8 * (1 : Nibble).toNat, spriteBit s k = true → fbGet s.cfg s.fb (visitX s 0 k) (visitY s 1 k) = false) ∧
      (∀ k < 8 * (1 : Nibble).toNat, spriteBit s' k = true → fbGet s.cfg s.fb (visitX s' 0 k) (visitY s' 1 k) = false) ∧
      (∀ k < 8 * (1 : Nibble).toNat, ∀ k' < 8 * (1 : Nibble).toNat, spriteBit s k = true → spriteBit s' k' = true →
        ¬ (visitX s 0 k = visitX s' 0 k' ∧ visitY s 1 k = visitY s' 1 k')) :=
  ⟨stage6 (withBlock [0xF0] []), stage6 fun s => { withBlock [0x0F] [] s with fb := [⟨0, 0⟩, ⟨1, 0⟩, ⟨2, 0⟩, ⟨3, 0⟩] }, _, _,
   by decide, by decide, by decide, by decide, rfl, by decide, by decide, rfl, by decide, by decide, by decide⟩

/-- The last cell, and the first column beyond it under `clip` and `wrap`. -/
theorem witness_OffGridCellsFollowThePolicy :
    Config.standard.onGrid 63 31 ∧
    (¬ Config.standard.onGrid 64 31 ∧ Config.standard.offGrid = .clip) ∧
    (let c := { Config.standard with offGrid := .wrap }
     ¬ c.onGrid 64 31 ∧ c.offGrid = .wrap ∧ c.hasColumns ∧ c.hasRows) := by decide

/-- The last cell of the first row is the first off the grid. -/
theorem witness_DrawOffTheGridFaultsUnderFault :
    let s := stage6 fun s => { withV [(0, 57)] s with cfg := { s.cfg with offGrid := .fault } }
    s.cfg.offGrid = .fault ∧ spriteInMemory s 1 ∧ 7 < 8 * (1 : Nibble).toNat ∧
      ¬ s.cfg.onGrid (visitX s 0 7) (visitY s 1 7) ∧ ∀ j < 7, s.cfg.onGrid (visitX s 0 j) (visitY s 1 j) := by decide

theorem witness_KeySkipsCompareTheWholeByte : (stage6 (withPeek (some 0xF))).peeks.queued = some 0xF :: [] := by decide

/-- A queued key, a queued "no key yet", and nothing queued. -/
theorem witness_WaitKeyTakesAKeyOrWaits :
    (stage6 fun s => { s with waits := ⟨[some 0xF], 0⟩ }).waits.queued = some 0xF :: [] ∧
    (stage6 fun s => { s with waits := ⟨[none, some 0xF], 0⟩ }).waits.queued = none :: [some 0xF] ∧
    stage6.waits.queued = [] := by decide

/-- A wait with nothing queued, one with only "no key yet" queued, and one with a key behind two of these. -/
theorem witness_WaitingChangesNothingUntilTheKey :
    (let s := stage6 fun s => { s with wait := some 3 }
     s.halt = none ∧ s.wait = some 3 ∧ s.waits.queued = []) ∧
    (let s := stage6 fun s => { s with wait := some 3, waits := ⟨[none], 4⟩ }
     s.halt = none ∧ s.wait = some 3 ∧ s.waits.queued = [none]) ∧
    (let s := stage6 fun s => { s with wait := some 3, waits := ⟨[none, none, some 0xF, none], 4⟩ }
     s.halt = none ∧ s.wait = some 3 ∧ s.waits.queued = List.replicate 2 none ++ some 0xF :: [none]) := by decide

theorem witness_TimerReadLagsByOneTick :
    ∃ s t : State, s.ready ∧ fetchedInstr s = some (.setDelay 0) ∧ step s = .next t ∧
      fetchedInstr t = some (.setRegFromDelay 1) :=
  ⟨start 0xF015 fun s => withV [(0, 3)] (storeBytes s 0x202 [0xF1, 0x07]), _, by decide, by decide, rfl, by decide⟩

/-- The last font byte and the first byte behind it. -/
theorem witness_ResetSetsRegistersPcAndMemory : 79 < 80 ∧ 80 ≤ 80 := by decide

/-- The last stack entry and the last cell. -/
theorem witness_ResetLeavesNothingPending : 255 < 256 ∧ Config.standard.onGrid 63 31 := by decide

/-- A program of one word, and an empty one. -/
theorem witness_FirstStepFetchesTheLoadedWord :
    (∃ t : State, load [0x12, 0x00] State.reset = .next t) ∧ ∃ t : State, load [] State.reset = .next t := ⟨⟨_, rfl⟩, ⟨_, rfl⟩⟩

/-- A loadable state, a program one byte too long, and its last kept byte. -/
theorem witness_LoadCopiesAndTruncates :
    State.reset.phase = .created ∧ 3583 < (List.replicate 3585 (0x12 : Byte)).length ∧ 3583 < 3584 := by
  rw [List.length_replicate]; decide

/-- A load; a step of a ready core, a poll of a waiting one and a step of a halted one. -/
theorem witness_LoadIsRefusedOnceLoadedOrRunning :
    (∃ s t : State, load [0x12, 0x00] s = .next t) ∧
    (∃ s t : State, s.ready ∧ Host.Core.run Sys2Proof.core (0 + 1) s = .next t) ∧
    (∃ s t : State, s.wait = some 3 ∧ s.phase ≠ .created ∧ Host.Core.run Sys2Proof.core (0 + 1) s = .next t) ∧
    ∃ s t : State, s.halt ≠ none ∧ s.phase ≠ .created ∧ Host.Core.run Sys2Proof.core (0 + 1) s = .next t :=
  ⟨⟨State.reset, _, rfl⟩, ⟨State.reset, _, by decide, rfl⟩,
   ⟨stage6 fun s => { s with wait := some 3, phase := .running }, _, by decide, by decide, rfl⟩,
   ⟨stage6 fun s => { s with halt := some ⟨.stackUnderflow, 0x200⟩, phase := .running }, _, by decide, by decide, rfl⟩⟩

end Sys2Proof.Tests
end

/-! State (10_state.md): what an instruction and a step change, and what each leaves unchanged. -/

namespace Sys2Proof.Machine

/-! ### What one poll of a key wait leaves unchanged -/

/-- A poll changes registers, WAIT and the queue of its answers only (10_state.md R45). -/
theorem pollWait_eq (s : State) (x : RegIdx) :
    pollWait s x = { s with v := (pollWait s x).v, wait := (pollWait s x).wait, waits := (pollWait s x).waits } := by
  rcases pollWait_cases s x with ⟨c, -, h⟩ | ⟨-, h⟩ <;> rw [h] <;> rfl

@[simp] theorem pollWait_i (s : State) (x : RegIdx) : (pollWait s x).i = s.i := by rw [pollWait_eq]
@[simp] theorem pollWait_pc (s : State) (x : RegIdx) : (pollWait s x).pc = s.pc := by rw [pollWait_eq]
@[simp] theorem pollWait_stack (s : State) (x : RegIdx) : (pollWait s x).stack = s.stack := by rw [pollWait_eq]
@[simp] theorem pollWait_sp (s : State) (x : RegIdx) : (pollWait s x).sp = s.sp := by rw [pollWait_eq]
@[simp] theorem pollWait_dt (s : State) (x : RegIdx) : (pollWait s x).dt = s.dt := by rw [pollWait_eq]
@[simp] theorem pollWait_st (s : State) (x : RegIdx) : (pollWait s x).st = s.st := by rw [pollWait_eq]
@[simp] theorem pollWait_halt (s : State) (x : RegIdx) : (pollWait s x).halt = s.halt := by rw [pollWait_eq]
@[simp] theorem pollWait_mem (s : State) (x : RegIdx) : (pollWait s x).mem = s.mem := by rw [pollWait_eq]
@[simp] theorem pollWait_fb (s : State) (x : RegIdx) : (pollWait s x).fb = s.fb := by rw [pollWait_eq]
@[simp] theorem pollWait_cfg (s : State) (x : RegIdx) : (pollWait s x).cfg = s.cfg := by rw [pollWait_eq]
@[simp] theorem pollWait_peeks (s : State) (x : RegIdx) : (pollWait s x).peeks = s.peeks := by rw [pollWait_eq]
@[simp] theorem pollWait_rands (s : State) (x : RegIdx) : (pollWait s x).rands = s.rands := by rw [pollWait_eq]
@[simp] theorem pollWait_phase (s : State) (x : RegIdx) : (pollWait s x).phase = s.phase := by rw [pollWait_eq]

theorem readV_writeV_of_ne {x r : RegIdx} (s : State) (b : Byte) (hr : r ≠ x) :
    readV (writeV s x b) r = readV s r := by
  rw [readV_writeV, if_neg hr]

/-- A poll for `Vx` writes no other register. -/
theorem readV_pollWait_of_ne {x r : RegIdx} (s : State) (hr : r ≠ x) : readV (pollWait s x) r = readV s r := by
  rcases pollWait_cases s x with ⟨c, -, h⟩ | ⟨-, h⟩ <;> rw [h]
  · exact readV_writeV_of_ne (keyWaitPoll s).2 (c.setWidth 8) hr
  · rfl

/-! ### What an instruction can do -/

/-- The ways an instruction can change a state (10_state.md section 10), instructions of one kind together: which fields it
writes, and under which of its own checks. Frame facts about `exec` are case splits on it. -/
inductive Effect (s : State) : Instr → State → Prop
  /-- The check of the data block fails (42_memory_index.md R151). -/
  | faultsMemBounds {i : Instr} {a : Nat} (hblock : firstOutOfRange s i.blockLength = some a) :
      Effect s i (raise s (instrAddr s) (.memBounds a))
  /-- Draw's box leaves the grid under the policy `fault` (43_display.md R165). -/
  | faultsFbBounds {x y : RegIdx} {n : Nibble} {cell : Visit} (hblock : firstOutOfRange s n.toNat = none)
      (hbox : firstOffGrid s.cfg (spriteVisits s (readV s x).toNat (readV s y).toNat n.toNat) = some cell) :
      Effect s (.draw x y n) (raise s (instrAddr s) (.fbBounds cell.x cell.y))
  /-- Call with a full stack (10_state.md R40). -/
  | faultsOverflow {nnn : Addr12} (hfull : s.sp.val = 256) :
      Effect s (.call nnn) (raise s (instrAddr s) .stackOverflow)
  /-- Return with an empty stack (10_state.md R41). -/
  | faultsUnderflow (hempty : s.sp.val = 0) : Effect s .ret (raise s (instrAddr s) .stackUnderflow)
  | jumps {nnn : Addr12} : Effect s (.goto nnn) (jumpTo s (addrOperand nnn))
  | jumpsByV0 {nnn : Addr12} : Effect s (.jumpV0 nnn) (jumpTo s (jumpV0Target s nnn))
  /-- The four skips on registers; what they compare stands in their own meanings. -/
  | skips {i : Instr} {cond : Bool} : Effect s i (skipIf s cond)
  | calls {nnn : Addr12} (hs : s.sp.val < 256) :
      Effect s (.call nnn) (jumpTo
        { s with stack := s.stack.set s.sp.val s.pc hs, sp := ⟨s.sp.val + 1, Nat.succ_lt_succ hs⟩ } (addrOperand nnn))
  | returns {k : Nat} (hk : k < 256) (hsp : s.sp.val = k + 1) :
      Effect s .ret (jumpTo { s with sp := ⟨k, Nat.lt_succ_of_lt hk⟩ } s.stack[k])
  /-- One register, from registers, constants or DT. -/
  | writesRegister {i : Instr} {x : RegIdx} {b : Byte} (hx : i.mayWrite x) : Effect s i (writeV s x b)
  /-- A result and then the flag (10_state.md R28). -/
  | writesResultAndFlag {i : Instr} {x : RegIdx} {result flag : Byte} (hx : i.mayWrite x) (hf : i.mayWrite vf) :
      Effect s i (writeV (writeV s x result) vf flag)
  | drawsRandom {x : RegIdx} {kk : Byte} :
      Effect s (.rand x kk) (writeV (randByte s).2 x ((randByte s).1 &&& kk))
  | loadsRegisters {x : RegIdx} (hblock : firstOutOfRange s (x.toNat + 1) = none) :
      Effect s (.regLoad x) (loadRegs s (x.toNat + 1))
  /-- StoreBCD and RegDump. -/
  | storesBlock {i : Instr} {bs : List Byte} (hlen : bs.length = i.storedLength)
      (hblock : firstOutOfRange s bs.length = none) : Effect s i (storeBytes s (dataAddr s 0) bs)
  | setsI {nnn : Addr12} : Effect s (.setI nnn) { s with i := addrOperand nnn }
  | addsToI {x : RegIdx} : Effect s (.addToI x) { s with i := s.i + (readV s x).setWidth 16 }
  | setsIToFont {x : RegIdx} : Effect s (.setIToFontAddr x) { s with i := glyphAddr (readV s x) }
  | clears : Effect s .clearScreen { s with fb := fbClear }
  | draws {x y : RegIdx} {n : Nibble} {visits : List Visit} (hblock : firstOutOfRange s n.toNat = none)
      (hvisits : visits = spriteVisits s (readV s x).toNat (readV s y).toNat n.toNat)
      (hbox : firstOffGrid s.cfg visits = none) :
      Effect s (.draw x y n) (writeV { s with fb := (blit s.cfg visits s.fb false).1 } vf
        (collisionFlag (blit s.cfg visits s.fb false).2))
  | skipsOnKey {x : RegIdx} :
      Effect s (.skipKeyPressed x) (skipIf (keyPeek s).2 (keyMatches (keyPeek s).1 (readV s x)))
  | skipsOnNoKey {x : RegIdx} :
      Effect s (.skipKeyNotPressed x) (skipIf (keyPeek s).2 (!keyMatches (keyPeek s).1 (readV s x)))
  | waitsForKey {x : RegIdx} : Effect s (.waitKey x) (pollWait s x)
  | setsDelay {x : RegIdx} : Effect s (.setDelay x) { s with dt := readV s x }
  | setsSound {x : RegIdx} : Effect s (.setSound x) { s with st := readV s x }

/-! The instructions that check before they write. -/

theorem ret_effect (s : State) : ∃ t, exec .ret s = .next t ∧ Effect s .ret t := by
  change ∃ t, execRet s = _ ∧ _
  unfold execRet
  split
  · next h => exact ⟨_, rfl, .faultsUnderflow (pop_eq_none.1 h)⟩
  · next h =>
    obtain ⟨k, hk, hsp, rfl, rfl⟩ := pop_eq_some h
    exact ⟨_, rfl, .returns hk hsp⟩

theorem call_effect (nnn : Addr12) (s : State) : ∃ t, exec (.call nnn) s = .next t ∧ Effect s (.call nnn) t := by
  change ∃ t, execCall nnn s = _ ∧ _
  unfold execCall
  split
  · next h => exact ⟨_, rfl, .faultsOverflow (push_eq_none.1 h)⟩
  · next h =>
    obtain ⟨hs, rfl⟩ := push_eq_some h
    exact ⟨_, rfl, .calls hs⟩

theorem draw_effect (x y : RegIdx) (n : Nibble) (s : State) :
    ∃ t, exec (.draw x y n) s = .next t ∧ Effect s (.draw x y n) t := by
  change ∃ t, execDraw x y n s = _ ∧ _
  unfold execDraw
  split
  · next h => exact ⟨_, rfl, .faultsMemBounds h⟩
  · next hblock =>
    dsimp only
    split
    · next hbox => exact ⟨_, rfl, .faultsFbBounds hblock hbox⟩
    · next hbox => exact ⟨_, rfl, .draws hblock rfl hbox⟩

theorem storeBCD_effect (x : RegIdx) (s : State) : ∃ t, exec (.storeBCD x) s = .next t ∧ Effect s (.storeBCD x) t := by
  change ∃ t, execStoreBCD x s = _ ∧ _
  unfold execStoreBCD
  split
  · next h => exact ⟨_, rfl, .faultsMemBounds h⟩
  · next h => exact ⟨_, rfl, .storesBlock rfl h⟩

theorem regDump_effect (x : RegIdx) (s : State) : ∃ t, exec (.regDump x) s = .next t ∧ Effect s (.regDump x) t := by
  change ∃ t, execRegDump x s = _ ∧ _
  unfold execRegDump
  split
  · next h => exact ⟨_, rfl, .faultsMemBounds h⟩
  · next h => exact ⟨_, rfl, .storesBlock (dumpedBytes_length s x) (by rwa [dumpedBytes_length])⟩

theorem regLoad_effect (x : RegIdx) (s : State) : ∃ t, exec (.regLoad x) s = .next t ∧ Effect s (.regLoad x) t := by
  change ∃ t, execRegLoad x s = _ ∧ _
  unfold execRegLoad
  split
  · next h => exact ⟨_, rfl, .faultsMemBounds h⟩
  · next h => exact ⟨_, rfl, .loadsRegisters h⟩

/-- Every instruction answers a next state, and changes it in one of the ways of `Effect`. -/
theorem exec_effect (i : Instr) (s : State) : ∃ t, exec i s = .next t ∧ Effect s i t :=
  match i with
  | .clearScreen => ⟨_, rfl, .clears⟩
  | .ret => ret_effect s
  | .goto _ => ⟨_, rfl, .jumps⟩
  | .call nnn => call_effect nnn s
  | .skipEqConst _ _ => ⟨_, rfl, .skips⟩
  | .skipNeqConst _ _ => ⟨_, rfl, .skips⟩
  | .skipEqReg _ _ => ⟨_, rfl, .skips⟩
  | .setConst _ _ => ⟨_, rfl, .writesRegister rfl⟩
  | .addConst _ _ => ⟨_, rfl, .writesRegister rfl⟩
  | .setReg _ _ => ⟨_, rfl, .writesRegister rfl⟩
  | .orReg _ _ => ⟨_, rfl, .writesRegister rfl⟩
  | .andReg _ _ => ⟨_, rfl, .writesRegister rfl⟩
  | .xorReg _ _ => ⟨_, rfl, .writesRegister rfl⟩
  | .addReg _ _ => ⟨_, rfl, .writesResultAndFlag (Or.inl rfl) (Or.inr rfl)⟩
  | .subReg _ _ => ⟨_, rfl, .writesResultAndFlag (Or.inl rfl) (Or.inr rfl)⟩
  | .shiftRight _ _ => ⟨_, rfl, .writesResultAndFlag (Or.inl rfl) (Or.inr rfl)⟩
  | .subRegRev _ _ => ⟨_, rfl, .writesResultAndFlag (Or.inl rfl) (Or.inr rfl)⟩
  | .shiftLeft _ _ => ⟨_, rfl, .writesResultAndFlag (Or.inl rfl) (Or.inr rfl)⟩
  | .skipNeqReg _ _ => ⟨_, rfl, .skips⟩
  | .setI _ => ⟨_, rfl, .setsI⟩
  | .jumpV0 _ => ⟨_, rfl, .jumpsByV0⟩
  | .rand _ _ => ⟨_, rfl, .drawsRandom⟩
  | .draw x y n => draw_effect x y n s
  | .skipKeyPressed _ => ⟨_, rfl, .skipsOnKey⟩
  | .skipKeyNotPressed _ => ⟨_, rfl, .skipsOnNoKey⟩
  | .setRegFromDelay _ => ⟨_, rfl, .writesRegister rfl⟩
  | .waitKey _ => ⟨_, rfl, .waitsForKey⟩
  | .setDelay _ => ⟨_, rfl, .setsDelay⟩
  | .setSound _ => ⟨_, rfl, .setsSound⟩
  | .addToI _ => ⟨_, rfl, .addsToI⟩
  | .setIToFontAddr _ => ⟨_, rfl, .setsIToFont⟩
  | .storeBCD x => storeBCD_effect x s
  | .regDump x => regDump_effect x s
  | .regLoad x => regLoad_effect x s

theorem effect_of_exec {i : Instr} {s t : State} (h : exec i s = .next t) : Effect s i t := by
  obtain ⟨u, hu, he⟩ := exec_effect i s
  cases hu.symm.trans h
  exact he

/-! ### What an instruction leaves unchanged -/

namespace Effect

variable {i : Instr} {s t : State}

theorem cfg_eq (h : Effect s i t) : t.cfg = s.cfg := by cases h <;> simp

theorem phase_eq (h : Effect s i t) : t.phase = s.phase := by cases h <;> simp

theorem stack_eq (h : Effect s i t) (hcall : ∀ nnn, i ≠ .call nnn) : t.stack = s.stack := by
  cases h with
  | calls hs => exact absurd rfl (hcall _)
  | _ => simp

theorem sp_eq (h : Effect s i t) (hcall : ∀ nnn, i ≠ .call nnn) (hret : i ≠ .ret) : t.sp = s.sp := by
  cases h with
  | calls hs => exact absurd rfl (hcall _)
  | returns hk hsp => exact absurd rfl hret
  | _ => simp

theorem dt_eq (h : Effect s i t) (hset : ∀ x, i ≠ .setDelay x) : t.dt = s.dt := by
  cases h with
  | setsDelay => exact absurd rfl (hset _)
  | _ => simp

theorem st_eq (h : Effect s i t) (hset : ∀ x, i ≠ .setSound x) : t.st = s.st := by
  cases h with
  | setsSound => exact absurd rfl (hset _)
  | _ => simp

theorem fb_eq (h : Effect s i t) (hclear : i ≠ .clearScreen) (hdraw : ∀ x y n, i ≠ .draw x y n) : t.fb = s.fb := by
  cases h with
  | clears => exact absurd rfl hclear
  | draws hblock hvisits hbox => exact absurd rfl (hdraw _ _ _)
  | _ => simp

theorem rands_eq (h : Effect s i t) (hrand : ∀ x kk, i ≠ .rand x kk) : t.rands = s.rands := by
  cases h with
  | drawsRandom => exact absurd rfl (hrand _ _)
  | _ => simp

theorem peeks_eq (h : Effect s i t) (hkey : ∀ x, i ≠ .skipKeyPressed x) (hno : ∀ x, i ≠ .skipKeyNotPressed x) :
    t.peeks = s.peeks := by
  cases h with
  | skipsOnKey => exact absurd rfl (hkey _)
  | skipsOnNoKey => exact absurd rfl (hno _)
  | _ => simp

theorem waits_wait_eq (h : Effect s i t) (hwait : ∀ x, i ≠ .waitKey x) : t.waits = s.waits ∧ t.wait = s.wait := by
  cases h with
  | waitsForKey => exact absurd rfl (hwait _)
  | _ => simp

theorem readV_eq (h : Effect s i t) {r : RegIdx} (hr : ¬ i.mayWrite r) : readV t r = readV s r := by
  cases h with
  | @writesRegister _ x b hx =>
    have hne : r ≠ x := fun e => hr (e ▸ hx)
    exact readV_writeV_of_ne _ _ hne
  | @writesResultAndFlag _ x result flag hx hf =>
    have hne : r ≠ x := fun e => hr (e ▸ hx)
    have hnf : r ≠ vf := fun e => hr (e ▸ hf)
    rw [readV_writeV_of_ne _ _ hnf, readV_writeV_of_ne _ _ hne]
  | drawsRandom => exact readV_writeV_of_ne _ _ hr
  | draws hblock hvisits hbox => exact readV_writeV_of_ne _ _ hr
  | @loadsRegisters x hblock =>
    have hlt : ¬ r.toNat < x.toNat + 1 := fun h => hr (Nat.le_of_lt_succ h)
    rw [readV_loadRegs s _ (by omega), if_neg hlt]
  | waitsForKey => exact readV_pollWait_of_ne s hr
  | _ => exact readV_congr (by simp) r

/-! ### The invariant -/

/-- What an instruction stores lies inside memory, so memory stays in its canonical form (log 28). -/
theorem memory_wf (h : Effect s i t) (hm : Memory.wf s.cfg s.mem) : Memory.wf t.cfg t.mem := by
  rw [h.cfg_eq]
  cases h with
  | @storesBlock _ bs hlen hblock =>
    refine wf_storeBytes ?_ hm
    rw [← List.length_eq_zero_iff]
    exact firstOutOfRange_eq_none.1 hblock
  | _ => simpa using hm

/-- What an instruction lights lies on the grid, so the screen stays in its canonical form (log 12). -/
theorem screen_canonical (h : Effect s i t) (hs : s.cfg.canonicalCells s.fb) : t.cfg.canonicalCells t.fb := by
  rw [h.cfg_eq]
  cases h with
  | clears => exact canonical_fbClear _
  | draws hblock hvisits hbox => exact canonical_blit _ _ hs
  | _ => simpa using hs

/-- No instruction both halts the core and makes it wait. -/
theorem halt_eq_or_wait_eq (h : Effect s i t) : t.halt = s.halt ∨ t.wait = s.wait := by
  cases h with
  | waitsForKey => exact .inl (by simp)
  | _ => exact .inr (by simp)

/-- An instruction of a running core that is ready keeps the invariant. -/
theorem inv (h : Effect s i t) (hs : s.Inv) (hready : s.ready) (hrun : s.phase = .running) : t.Inv where
  parameters := h.cfg_eq ▸ hs.parameters
  memory := h.memory_wf hs.memory
  screen := h.screen_canonical hs.screen
  haltedOrWaiting := h.halt_eq_or_wait_eq.imp (·.trans hready.1) (·.trans hready.2)
  begun _ := h.phase_eq.trans hrun

end Effect

/-- A poll of a core that waits keeps the invariant. -/
theorem pollWait_inv {s : State} (x : RegIdx) (hs : s.Inv) (hhalt : s.halt = none) (hwait : s.wait ≠ none) :
    (pollWait s x).Inv where
  parameters := by simpa using hs.parameters
  memory := by simpa using hs.memory
  screen := by simpa using hs.screen
  haltedOrWaiting := .inl (by simpa using hhalt)
  begun _ := by simpa using hs.begun (.inr hwait)

/-- The tick keeps the invariant: it touches the timers and `phase` only. -/
theorem ticked_inv {s : State} (hs : s.Inv) : (ticked s).Inv where
  parameters := hs.parameters
  memory := hs.memory
  screen := hs.screen
  haltedOrWaiting := hs.haltedOrWaiting
  begun _ := rfl

/-- A fault of the fetch or the decoder keeps the invariant of a running core that does not wait. -/
theorem raise_inv {s : State} (p : Addr) (c : Cause) (hs : s.Inv) (hwait : s.wait = none) (hrun : s.phase = .running) :
    (raise s p c).Inv where
  parameters := hs.parameters
  memory := hs.memory
  screen := hs.screen
  haltedOrWaiting := .inr hwait
  begun _ := hrun

/-- Stage 5 keeps the invariant: it moves `PC` only. -/
theorem advance_inv {s : State} (hs : s.Inv) : (advance s).Inv where
  parameters := hs.parameters
  memory := hs.memory
  screen := hs.screen
  haltedOrWaiting := hs.haltedOrWaiting
  begun := hs.begun

/-- Settles O20, by the cases of a step; for an executed instruction by the ways of `Effect`. -/
theorem invariantKeptByEveryStep : Obligations.InvariantKeptByEveryStep := by
  intro s t hs hstep
  rcases step_cases s with ⟨-, h⟩ | ⟨hhalt, x, hx, h⟩ | ⟨hr, -, h⟩ | ⟨hr, hi, lo, w, -, -, h⟩ | ⟨hr, i, -, h⟩ <;>
    rw [h] at hstep
  · cases hstep
    exact hs
  · cases hstep
    exact pollWait_inv x hs hhalt (by simp [hx])
  · cases hstep
    exact raise_inv _ _ (ticked_inv hs) hr.2 rfl
  · cases hstep
    exact raise_inv _ _ (ticked_inv hs) hr.2 rfl
  · exact (effect_of_exec hstep).inv (advance_inv (ticked_inv hs)) hr rfl

/-- Settles O10, by the cases of a step: every instruction answers a next state. -/
theorem everyStepAnswersNext : Obligations.EveryStepAnswersNext := by
  intro s
  rcases step_cases s with ⟨-, h⟩ | ⟨-, x, -, h⟩ | ⟨-, -, h⟩ | ⟨-, hi, lo, w, -, -, h⟩ | ⟨-, i, -, h⟩
  · exact ⟨_, h⟩
  · exact ⟨_, h⟩
  · exact ⟨_, h⟩
  · exact ⟨_, h⟩
  · obtain ⟨t, ht, -⟩ := exec_effect i (advance (ticked s))
    exact ⟨t, h.trans ht⟩

/-- Settles O16. -/
theorem stackWrittenByCallAndReturnOnly : Obligations.StackWrittenByCallAndReturnOnly := by
  intro i s t h hcall
  have he := effect_of_exec h
  exact ⟨he.stack_eq hcall, he.sp_eq hcall⟩

/-- Settles O17. -/
theorem registersWrittenOnlyWhereListed : Obligations.RegistersWrittenOnlyWhereListed :=
  fun _ _ _ _ h hr => (effect_of_exec h).readV_eq hr

/-- Settles O19, field by field. -/
theorem devicesTouchedByTheirInstructionsOnly : Obligations.DevicesTouchedByTheirInstructionsOnly := by
  intro i s t h
  have he := effect_of_exec h
  exact ⟨he.dt_eq, he.st_eq, he.fb_eq, he.rands_eq, he.peeks_eq, he.waits_wait_eq, he.cfg_eq, he.phase_eq⟩

/-! ### The step of a ready core, and reset -/

/-- A ready core runs the instruction it fetches, after the tick and with `PC` past it (10_state.md R34). -/
theorem step_of_fetchedInstr {s : State} {i : Instr} (hr : s.ready) (hi : fetchedInstr s = some i) :
    step s = exec i (advance (ticked s)) := by
  rcases step_cases s with ⟨hh, -⟩ | ⟨-, x, hx, -⟩ | ⟨-, hb, -⟩ | ⟨-, hi', lo, w, hb, hd, -⟩ | ⟨-, j, hj, h⟩
  · exact absurd hr.1 hh
  · simp [hr.2] at hx
  · simp [fetchedInstr, hb] at hi
  · simp [fetchedInstr, hb, hd] at hi
  · cases hi.symm.trans hj
    exact h

/-- The instruction a core fetches is the one the two bytes at `PC` decode to (20_memory.md R52). -/
theorem fetchedInstr_of_decode {s : State} {i : Instr} (hpc : s.pc.toNat + 1 < 4096)
    (hd : decode (memByte s s.pc.toNat) (memByte s (s.pc.toNat + 1)) = .instr i) : fetchedInstr s = some i := by
  simp [fetchedInstr, fetchBytes_eq_some hpc, hd]

/-- Settles O7: the state the instruction runs on is the ticked one with `PC` advanced. -/
theorem stepRunsTheDecodedInstruction : Obligations.StepRunsTheDecodedInstruction :=
  fun _ _ hr hpc hd => step_of_fetchedInstr hr (fetchedInstr_of_decode hpc hd)

theorem resetByte_of_lt {a : Nat} (c : Config) (h : a < 80) : resetByte c a = c.font[a] := dif_pos h

theorem resetByte_of_le {a : Nat} (c : Config) (h : 80 ≤ a) : resetByte c a = 0 := dif_neg (Nat.not_lt.2 h)

@[simp] theorem readV_resetWith (c : Config) (r : RegIdx) : readV (State.resetWith c) r = 0 := by
  simp [readV]

/-- Settles O56: nothing is listed at reset, so memory reads as its reset content. -/
theorem resetSetsRegistersPcAndMemory : Obligations.ResetSetsRegistersPcAndMemory := fun c =>
  ⟨readV_resetWith c, resetWith_pc c, fun a h => (memByte_resetWith c a).trans (resetByte_of_lt c h),
    fun a h => (memByte_resetWith c a).trans (resetByte_of_le c h)⟩

end Sys2Proof.Machine

/-! Memory (20_memory.md): stores and fetches, the canonical forms of the two arrays, and the host's `load`. -/

namespace Sys2Proof.Machine

/-! ### Reading a block that was stored -/

theorem memByte_storeBytes_of_notMem {a a' : Nat} {bs : List Byte} (s : State)
    (h : ¬ (a ≤ a' ∧ a' < a + bs.length)) : memByte (storeBytes s a bs) a' = memByte s a' := by
  have hout : ¬ (a ≤ a' ∧ a' - a < bs.length) := by omega
  rw [memByte_storeBytes, dif_neg hout]

theorem memByte_storeBytes_add {k : Nat} {bs : List Byte} (s : State) (a : Nat) (hk : k < bs.length) :
    memByte (storeBytes s a bs) (a + k) = bs[k] := by
  have hin : a ≤ a + k ∧ a + k - a < bs.length := by omega
  rw [memByte_storeBytes, dif_pos hin]
  simp only [Nat.add_sub_cancel_left]

/-- Only StoreBCD and RegDump write memory, and only in the block of their stored length at `I` (20_memory.md R54). -/
theorem Effect.memByte_eq {i : Instr} {s t : State} {a : Nat} (h : Effect s i t)
    (ha : ¬ (s.i.toNat ≤ a ∧ a < s.i.toNat + i.storedLength)) : memByte t a = memByte s a := by
  cases h with
  | storesBlock hlen hblock => exact memByte_storeBytes_of_notMem s (hlen ▸ ha)
  | _ => exact memByte_congr (by simp) (by simp) a

/-- Settles O18. -/
theorem memoryWrittenOnlyInTheStoredBlock : Obligations.MemoryWrittenOnlyInTheStoredBlock :=
  fun _ _ _ _ h ha => (effect_of_exec h).memByte_eq ha

/-! ### RegDump, and the fetch that follows it -/

theorem exec_regDump {x : RegIdx} {s : State} (hblock : s.i.toNat + x.toNat < 4096) :
    exec (.regDump x) s = .next (storeBytes s s.i.toNat (dumpedBytes s x)) := by
  have hin : firstOutOfRange s (x.toNat + 1) = none := firstOutOfRange_eq_none.2 (.inr hblock)
  change execRegDump x s = _
  simp [execRegDump, hin, dataAddr]

theorem memByte_storeBytes_dumpedBytes {x : RegIdx} {k : Nat} (s : State) (a : Nat) (hk : k ≤ x.toNat) :
    memByte (storeBytes s a (dumpedBytes s x)) (a + k) = readV s (BitVec.ofNat 4 k) := by
  have hlen : k < (dumpedBytes s x).length := by rw [dumpedBytes_length]; omega
  rw [memByte_storeBytes_add s a hlen, dumpedBytes_getElem]

/-- Settles O24: RegDump keeps `PC`, and the two bytes there are the first two of its block. -/
theorem nextFetchSeesTheDumpedWord : Obligations.NextFetchSeesTheDumpedWord := by
  intro x s hx hblock hpc
  refine ⟨_, exec_regDump hblock, ?_⟩
  have hV0 : memByte (storeBytes s s.i.toNat (dumpedBytes s x)) s.i.toNat = readV s 0 :=
    memByte_storeBytes_dumpedBytes s s.i.toNat (Nat.zero_le _)
  have hV1 : memByte (storeBytes s s.i.toNat (dumpedBytes s x)) (s.i.toNat + 1) = readV s 1 :=
    memByte_storeBytes_dumpedBytes s s.i.toNat hx
  have hin : (storeBytes s s.i.toNat (dumpedBytes s x)).pc.toNat + 1 < 4096 := by
    rw [storeBytes_pc, hpc]
    omega
  rw [fetchBytes_eq_some hin, storeBytes_pc, hpc, hV0, hV1]

/-! ### Arrays in canonical form are determined by their reads -/

/-- With rising addresses a cell is in the list iff it is the byte listed for its address. -/
theorem mem_iff_listedByte {m : List Host.Cell} (h : m.Pairwise fun p q => p.1 < q.1) (cell : Host.Cell) :
    cell ∈ m ↔ listedByte m cell.1 = some cell.2 := by
  induction m with
  | nil => simp [listedByte]
  | cons c rest ih =>
    obtain ⟨hlt, hrest⟩ := List.pairwise_cons.1 h
    rw [List.mem_cons, listedByte]
    by_cases hk : c.1 = cell.1
    · have hnot : cell ∉ rest := fun hc => (hlt cell hc).ne hk
      rw [if_pos hk, or_iff_left hnot, Option.some.injEq, eq_comm, Prod.ext_iff, and_iff_right hk]
    · have hne : cell ≠ c := fun he => hk (he ▸ rfl)
      rw [if_neg hk, or_iff_right hne, ih hrest]

/-- In canonical form the listed cells are those that read differently from their reset content (log 28). -/
theorem Memory.wf.mem_iff {c : Config} {m : List Host.Cell} (h : Memory.wf c m) (cell : Host.Cell) :
    cell ∈ m ↔ readCell c m cell.1 = cell.2 ∧ cell.2 ≠ resetByte c cell.1 := by
  obtain ⟨hrise, hlisted⟩ := h
  rw [readCell]
  constructor
  · intro hc
    exact ⟨by rw [(mem_iff_listedByte hrise cell).1 hc, Option.getD_some], (hlisted cell hc).2⟩
  · rintro ⟨hread, hne⟩
    rw [mem_iff_listedByte hrise]
    cases hb : listedByte m cell.1 with
    | none => exact absurd (by simpa [hb] using hread.symm) hne
    | some b => simpa [hb] using hread

/-- A coordinate on the grid reads whether its own cell is lit (60_exceptions.md R189). -/
theorem fbGet_onGrid {c : Config} {x y : Nat} (fb : List Pixel) (h : c.onGrid x y) :
    fbGet c fb x y = decide (⟨x, y⟩ ∈ fb) := by
  rw [fbGet, resolveCell_onGrid h]

theorem Pixel.before_asymm : Std.Asymm Pixel.before where
  asymm p q h1 h2 := by unfold Pixel.before at *; omega

/-- Settles O22: in canonical form the reads determine the members, and an ordered list is determined by its members. -/
theorem equalReadingIsEqualData : Obligations.EqualReadingIsEqualData := by
  constructor
  · intro c m m' h h' hread
    have hasymm : Std.Asymm fun p q : Host.Cell => p.1 < q.1 := ⟨fun _ _ => Nat.lt_asymm⟩
    refine h.1.eq_of_mem_iff h'.1 fun cell => ?_
    rw [h.mem_iff, h'.mem_iff, hread]
  · intro c fb fb' h h' hread
    have hasymm := Pixel.before_asymm
    refine h.1.eq_of_mem_iff h'.1 fun p => ?_
    have hcell (hg : c.onGrid p.x p.y) : p ∈ fb ↔ p ∈ fb' := by
      simpa [fbGet_onGrid _ hg] using hread p.x p.y hg
    exact ⟨fun hp => (hcell (h.2 p hp)).1 hp, fun hp => (hcell (h'.2 p hp)).2 hp⟩

/-! ### The host's `load` -/

theorem load_created {s : State} (bytes : List Byte) (h : s.phase = .created) :
    load bytes s = .next { loadProgram s bytes with phase := .loaded } := by
  simp [load, h]

theorem load_refused {s : State} (bytes : List Byte) (h : s.phase ≠ .created) :
    load bytes s = .refused .loadNotAllowed := by
  cases hp : s.phase with
  | created => exact absurd hp h
  | loaded => simp [load, hp]
  | running => simp [load, hp]

/-- A load that completes copies the program into a created machine, and marks it loaded. -/
theorem eq_of_load {bytes : List Byte} {s t : State} (h : load bytes s = .next t) :
    s.phase = .created ∧ t = { loadProgram s bytes with phase := .loaded } := by
  by_cases hp : s.phase = .created
  · rw [load_created bytes hp] at h
    cases h
    exact ⟨hp, rfl⟩
  · rw [load_refused bytes hp] at h
    cases h

/-- At most 3584 bytes are kept (20_memory.md R60). -/
theorem length_take_maxProgram (bytes : List Byte) : (bytes.take maxProgram).length = min bytes.length 3584 :=
  List.length_take.trans (Nat.min_comm _ _)

/-- Settles O59. -/
theorem loadCopiesAndTruncates : Obligations.LoadCopiesAndTruncates := by
  intro bytes s hs
  have hlen := length_take_maxProgram bytes
  refine ⟨_, load_created bytes hs, fun k hk hmax => ?_, fun a ha => ?_, ?_⟩
  · exact (memByte_storeBytes_add s progBase (by omega)).trans List.getElem_take
  · exact memByte_storeBytes_of_notMem s (hlen ▸ ha)
  · rw [loadProgram, storeBytes_eq]

/-- A load keeps the invariant: what it stores lies inside memory, and a created core neither is halted nor waits. -/
theorem load_inv {bytes : List Byte} {s t : State} (hs : s.Inv) (h : load bytes s = .next t) : t.Inv := by
  obtain ⟨hp, rfl⟩ := eq_of_load h
  have hend : progBase + (bytes.take maxProgram).length ≤ 4096 := by
    rw [length_take_maxProgram, progBase]
    omega
  have hnone : ¬ (s.halt ≠ none ∨ s.wait ≠ none) := fun hb => by simpa [hp] using hs.begun hb
  exact {
    parameters := by simpa [loadProgram] using hs.parameters
    memory := by simpa [loadProgram] using wf_storeBytes (.inr hend) hs.memory
    screen := by simpa [loadProgram] using hs.screen
    haltedOrWaiting := by simpa [loadProgram] using hs.haltedOrWaiting
    begun := fun hb => absurd (by simpa [loadProgram] using hb) hnone }

theorem resetWith_inv {c : Config} (hc : c.wellFormed) : (State.resetWith c).Inv where
  parameters := hc
  memory := wf_resetWith c
  screen := hc.2.2
  haltedOrWaiting := .inl rfl
  begun h := by simp at h

/-- Settles O21. -/
theorem invariantHoldsAfterResetAndLoad : Obligations.InvariantHoldsAfterResetAndLoad :=
  ⟨fun _ => resetWith_inv, resetWith_inv (c := Config.standard) (by decide), fun _ _ _ => load_inv⟩

/-- A property that every step keeps holds after any number of steps. -/
theorem run_keeps {P : State → Prop} (hkeep : ∀ s t, P s → step s = .next t → P t) {n : Nat} {s t : State}
    (hs : P s) (h : Host.Core.run Sys2Proof.core n s = .next t) : P t := by
  induction n generalizing s with
  | zero =>
    cases h
    exact hs
  | succ n ih =>
    obtain ⟨u, hu⟩ := everyStepAnswersNext s
    rw [run_succ n hu] at h
    exact ih (hkeep s u hs hu) h

/-- No step makes a core created again; a fetch, which a ready core does, marks it running (20_memory.md R61). -/
theorem phase_ne_created_of_step {s t : State} (hs : s.ready ∨ s.phase ≠ .created) (h : step s = .next t) :
    t.phase ≠ .created := by
  have hrunning {u : State} (hu : u.phase = .running) : u.phase ≠ .created := by rw [hu]; decide
  rcases step_cases s with ⟨hh, h'⟩ | ⟨-, x, hx, h'⟩ | ⟨-, -, h'⟩ | ⟨-, hi, lo, w, -, -, h'⟩ | ⟨-, i, -, h'⟩ <;>
    rw [h'] at h
  · cases h
    exact hs.resolve_left fun hr => hh hr.1
  · cases h
    rw [pollWait_phase]
    exact hs.resolve_left fun hr => by simp [hr.2] at hx
  · cases h
    exact hrunning rfl
  · cases h
    exact hrunning rfl
  · exact hrunning (effect_of_exec h).phase_eq

/-- Settles O60: neither after a load nor after a step is the machine only created, and it never is so again. -/
theorem loadIsRefusedOnceLoadedOrRunning : Obligations.LoadIsRefusedOnceLoadedOrRunning := by
  intro bytes bytes' s t
  refine ⟨fun h => load_refused bytes' ?_, fun n hs h => load_refused bytes' ?_⟩
  · obtain ⟨-, rfl⟩ := eq_of_load h
    simp
  · obtain ⟨u, hu⟩ := everyStepAnswersNext s
    rw [run_succ n hu] at h
    exact run_keeps (fun _ _ hv => phase_ne_created_of_step (.inr hv)) (phase_ne_created_of_step hs hu) h

/-! ### The faults of the fetch and of the decoder -/

/-- A step of a ready core fetches: it fails there, in the decoder, or runs what it fetched (10_state.md R34). -/
theorem step_cases_of_ready {s : State} (hr : s.ready) :
    (fetchBytes s = none ∧ step s = .next (raise (ticked s) s.pc (.fetchBounds s.pc))) ∨
    (∃ hi lo w, fetchBytes s = some (hi, lo) ∧ decode hi lo = .illegal w ∧
      step s = .next (raise (ticked s) s.pc (.decodeError w))) ∨
    (∃ i, fetchedInstr s = some i ∧ step s = exec i (advance (ticked s))) := by
  rcases step_cases s with ⟨hh, -⟩ | ⟨-, x, hx, -⟩ | ⟨-, h⟩ | ⟨-, h⟩ | ⟨-, h⟩
  · exact absurd hr.1 hh
  · simp [hr.2] at hx
  · exact .inl h
  · exact .inr (.inl h)
  · exact .inr (.inr h)

theorem step_of_fetchBytes_none {s : State} (hr : s.ready) (hb : fetchBytes s = none) :
    step s = .next (raise (ticked s) s.pc (.fetchBounds s.pc)) := by
  rcases step_cases_of_ready hr with ⟨-, h⟩ | ⟨hi, lo, w, hb', -, -⟩ | ⟨i, hi, -⟩
  · exact h
  · simp [hb] at hb'
  · simp [fetchedInstr, hb] at hi

theorem step_of_illegal {s : State} {hi lo : Byte} {w : Word} (hr : s.ready) (hb : fetchBytes s = some (hi, lo))
    (hd : decode hi lo = .illegal w) : step s = .next (raise (ticked s) s.pc (.decodeError w)) := by
  rcases step_cases_of_ready hr with ⟨hb', -⟩ | ⟨hi', lo', w', hb', hd', h⟩ | ⟨i, hi', -⟩
  · simp [hb] at hb'
  · cases hb.symm.trans hb'
    cases hd.symm.trans hd'
    exact h
  · simp [fetchedInstr, hb, hd] at hi'

/-- Settles O8: `PC` is still the fetch address when the fault is recorded. -/
theorem fetchAndDecodeFaultsHalt : Obligations.FetchAndDecodeFaultsHalt := fun _ hr =>
  ⟨fun hpc => step_of_fetchBytes_none hr (fetchBytes_eq_none.2 hpc),
    fun _ hpc hd => step_of_illegal hr (fetchBytes_eq_some hpc) hd⟩

end Sys2Proof.Machine

/-! Encoding (30_encoding.md): the fields as numbers, what the decoder answers, and the opcode table. -/

namespace Sys2Proof

/-! ### The word and its fields as numbers -/

theorem wordOfBytes_toNat (hi lo : Byte) : (wordOfBytes hi lo).toNat = hi.toNat * 256 + lo.toNat := by
  have happend : wordOfBytes hi lo = hi ++ lo := by
    rw [wordOfBytes, BitVec.append_def, BitVec.shiftLeftZeroExtend_eq, BitVec.setWidth'_eq]
  rw [happend, BitVec.toNat_append, ← Nat.shiftLeft_add_eq_or_of_lt lo.isLt, Nat.shiftLeft_eq]

theorem fieldOp_toNat (w : Word) : (fieldOp w).toNat = w.toNat / 4096 := by
  simp [fieldOp, Nat.shiftRight_eq_div_pow]; omega

theorem fieldX_toNat (w : Word) : (fieldX w).toNat = w.toNat / 256 % 16 := by
  simp [fieldX, Nat.shiftRight_eq_div_pow]

theorem fieldY_toNat (w : Word) : (fieldY w).toNat = w.toNat / 16 % 16 := by
  simp [fieldY, Nat.shiftRight_eq_div_pow]

theorem fieldN_toNat (w : Word) : (fieldN w).toNat = w.toNat % 16 := by
  simp [fieldN]

theorem fieldKk_toNat (w : Word) : (fieldKk w).toNat = w.toNat % 256 := by
  simp [fieldKk]

theorem fieldNnn_toNat (w : Word) : (fieldNnn w).toNat = w.toNat % 4096 := by
  simp [fieldNnn]

/-- Settles O1, field by field. -/
theorem wordFieldsAreBitSlices : Obligations.WordFieldsAreBitSlices :=
  ⟨wordOfBytes_toNat, fun w => ⟨fieldOp_toNat w, fieldX_toNat w, fieldY_toNat w, fieldN_toNat w, fieldKk_toNat w,
    fieldNnn_toNat w⟩⟩

/-! ### What the decoder answers -/

/-- The words that R114 and R115 list as illegal, family by family, in terms of the fields the decoder looks at
(`decodeWord_eq_illegal_iff`). -/
def ListedIllegal (w : Word) : Prop :=
  ((fieldOp w).toNat = 0x0 ∧ (fieldNnn w).toNat ∉ [0x0E0, 0x0EE]) ∨
  ((fieldOp w).toNat = 0x5 ∧ (fieldN w).toNat ≠ 0) ∨
  ((fieldOp w).toNat = 0x8 ∧ (fieldN w).toNat ∈ [0x8, 0x9, 0xA, 0xB, 0xC, 0xD, 0xF]) ∨
  ((fieldOp w).toNat = 0x9 ∧ (fieldN w).toNat ≠ 0) ∨
  ((fieldOp w).toNat = 0xE ∧ (fieldKk w).toNat ∉ [0x9E, 0xA1]) ∨
  ((fieldOp w).toNat = 0xF ∧ (fieldKk w).toNat ∉ [0x07, 0x0A, 0x15, 0x18, 0x1E, 0x29, 0x33, 0x55, 0x65])

/-- What an answer of the decoder says of the word `w`: it is the word of the instruction answered, or it is listed and
reported itself. -/
inductive Decodes (w : Word) : Decoded → Prop
  | instr {i : Instr} (hword : encode i = w) : Decodes w (.instr i)
  | illegal (hlisted : ListedIllegal w) : Decodes w (.illegal w)

theorem packNnn_eq {w : Word} {op : Nibble} {nnn : Addr12} (hop : (fieldOp w).toNat = op.toNat)
    (hnnn : (fieldNnn w).toNat = nnn.toNat) : packNnn op nnn = w := by
  rw [← BitVec.eq_of_toNat_eq hop, ← BitVec.eq_of_toNat_eq hnnn, packNnn_fields]

theorem packXkk_eq {w : Word} {op : Nibble} {kk : Byte} (hop : (fieldOp w).toNat = op.toNat)
    (hkk : (fieldKk w).toNat = kk.toNat) : packXkk op (fieldX w) kk = w := by
  rw [← BitVec.eq_of_toNat_eq hop, ← BitVec.eq_of_toNat_eq hkk, packXkk_fields]

theorem packXyn_eq {w : Word} {op n : Nibble} (hop : (fieldOp w).toNat = op.toNat)
    (hn : (fieldN w).toNat = n.toNat) : packXyn op (fieldX w) (fieldY w) n = w := by
  rw [← BitVec.eq_of_toNat_eq hop, ← BitVec.eq_of_toNat_eq hn, packXyn_fields]

theorem decodes_decodeSystem {w : Word} (hop : (fieldOp w).toNat = 0x0) : Decodes w (decodeSystem w) := by
  unfold decodeSystem
  split
  case h_1 hE0 => exact .instr (packNnn_eq (op := 0x0) (nnn := 0x0E0) hop hE0)
  case h_2 hEE => exact .instr (packNnn_eq (op := 0x0) (nnn := 0x0EE) hop hEE)
  case h_3 => exact .illegal (by simp_all [ListedIllegal])

theorem decodes_decodeSkipReg {w : Word} {i : Instr} (hop : (fieldOp w).toNat = 0x5 ∨ (fieldOp w).toNat = 0x9)
    (hword : fieldN w = 0 → encode i = w) : Decodes w (decodeSkipReg w i) := by
  unfold decodeSkipReg
  split
  case isTrue hn => exact .instr (hword hn)
  case isFalse hn =>
    have hn' : (fieldN w).toNat ≠ 0 := fun h => hn (BitVec.eq_of_toNat_eq h)
    exact .illegal (by rcases hop with hop | hop <;> simp [ListedIllegal, hop, hn'])

theorem decodes_decodeAlu {w : Word} (hop : (fieldOp w).toNat = 0x8) :
    Decodes w (decodeAlu w (fieldX w) (fieldY w)) := by
  unfold decodeAlu
  split
  case h_10 =>
    have hn : (fieldN w).toNat ∈ [0x8, 0x9, 0xA, 0xB, 0xC, 0xD, 0xF] := by
      simp only [imp_false, List.mem_cons, List.not_mem_nil] at *
      omega
    exact .illegal (.inr (.inr (.inl ⟨hop, hn⟩)))
  all_goals exact .instr (packXyn_eq hop ‹_›)

theorem decodes_decodeKey {w : Word} (hop : (fieldOp w).toNat = 0xE) : Decodes w (decodeKey w (fieldX w)) := by
  unfold decodeKey
  split
  case h_3 => exact .illegal (by simp_all [ListedIllegal])
  all_goals exact .instr (packXkk_eq hop ‹_›)

theorem decodes_decodeMisc {w : Word} (hop : (fieldOp w).toNat = 0xF) : Decodes w (decodeMisc w (fieldX w)) := by
  unfold decodeMisc
  split
  case h_10 => exact .illegal (by simp_all [ListedIllegal])
  all_goals exact .instr (packXkk_eq hop ‹_›)

/-- The decoder's specification (30_encoding.md R78), by the families it dispatches to. -/
theorem decodes_decodeWord (w : Word) : Decodes w (decodeWord w) := by
  unfold decodeWord
  split
  case h_1 hop => exact decodes_decodeSystem hop
  case h_2 hop => exact .instr (packNnn_eq hop rfl)
  case h_3 hop => exact .instr (packNnn_eq hop rfl)
  case h_4 hop => exact .instr (packXkk_eq hop rfl)
  case h_5 hop => exact .instr (packXkk_eq hop rfl)
  case h_6 hop => exact decodes_decodeSkipReg (.inl hop) fun hn => packXyn_eq hop (congrArg BitVec.toNat hn)
  case h_7 hop => exact .instr (packXkk_eq hop rfl)
  case h_8 hop => exact .instr (packXkk_eq hop rfl)
  case h_9 hop => exact decodes_decodeAlu hop
  case h_10 hop => exact decodes_decodeSkipReg (.inr hop) fun hn => packXyn_eq hop (congrArg BitVec.toNat hn)
  case h_11 hop => exact .instr (packNnn_eq hop rfl)
  case h_12 hop => exact .instr (packNnn_eq hop rfl)
  case h_13 hop => exact .instr (packXkk_eq hop rfl)
  case h_14 hop => exact .instr (packXyn_eq hop rfl)
  case h_15 hop => exact decodes_decodeKey hop
  case h_16 => exact decodes_decodeMisc (by simp only [imp_false] at *; omega)

/-- A word that decodes is the word of its instruction. -/
theorem encode_of_decodeWord {w : Word} {i : Instr} (h : decodeWord w = .instr i) : encode i = w := by
  have hspec := decodes_decodeWord w
  rw [h] at hspec
  cases hspec with | instr hword => exact hword

/-- The decoder calls no word illegal but the one it was given, and that one is listed. -/
theorem eq_and_listed_of_illegal {w w' : Word} (h : decodeWord w = .illegal w') : w' = w ∧ ListedIllegal w := by
  have hspec := decodes_decodeWord w
  rw [h] at hspec
  cases hspec with | illegal hlisted => exact ⟨rfl, hlisted⟩

/-! ### The opcode table -/

/-- `Laws.KeepsPattern`, for every instruction at once. -/
theorem encode_and_mask : ∀ i : Instr, encode i &&& i.pattern.2 = i.pattern.1
  | .clearScreen => Laws.KeepsPattern.clearScreen
  | .ret => Laws.KeepsPattern.ret
  | .goto nnn => Laws.KeepsPattern.goto nnn
  | .call nnn => Laws.KeepsPattern.call nnn
  | .skipEqConst x kk => Laws.KeepsPattern.skipEqConst x kk
  | .skipNeqConst x kk => Laws.KeepsPattern.skipNeqConst x kk
  | .skipEqReg x y => Laws.KeepsPattern.skipEqReg x y
  | .setConst x kk => Laws.KeepsPattern.setConst x kk
  | .addConst x kk => Laws.KeepsPattern.addConst x kk
  | .setReg x y => Laws.KeepsPattern.setReg x y
  | .orReg x y => Laws.KeepsPattern.orReg x y
  | .andReg x y => Laws.KeepsPattern.andReg x y
  | .xorReg x y => Laws.KeepsPattern.xorReg x y
  | .addReg x y => Laws.KeepsPattern.addReg x y
  | .subReg x y => Laws.KeepsPattern.subReg x y
  | .shiftRight x y => Laws.KeepsPattern.shiftRight x y
  | .subRegRev x y => Laws.KeepsPattern.subRegRev x y
  | .shiftLeft x y => Laws.KeepsPattern.shiftLeft x y
  | .skipNeqReg x y => Laws.KeepsPattern.skipNeqReg x y
  | .setI nnn => Laws.KeepsPattern.setI nnn
  | .jumpV0 nnn => Laws.KeepsPattern.jumpV0 nnn
  | .rand x kk => Laws.KeepsPattern.rand x kk
  | .draw x y n => Laws.KeepsPattern.draw x y n
  | .skipKeyPressed x => Laws.KeepsPattern.skipKeyPressed x
  | .skipKeyNotPressed x => Laws.KeepsPattern.skipKeyNotPressed x
  | .setRegFromDelay x => Laws.KeepsPattern.setRegFromDelay x
  | .waitKey x => Laws.KeepsPattern.waitKey x
  | .setDelay x => Laws.KeepsPattern.setDelay x
  | .setSound x => Laws.KeepsPattern.setSound x
  | .addToI x => Laws.KeepsPattern.addToI x
  | .setIToFontAddr x => Laws.KeepsPattern.setIToFontAddr x
  | .storeBCD x => Laws.KeepsPattern.storeBCD x
  | .regDump x => Laws.KeepsPattern.regDump x
  | .regLoad x => Laws.KeepsPattern.regLoad x

theorem pattern_mem_opcodeTable (i : Instr) : i.pattern ∈ opcodeTable := by
  cases i <;> simp [Instr.pattern, opcodeTable]

theorem matches_of_decodeWord {w : Word} {i : Instr} (h : decodeWord w = .instr i) : w &&& i.pattern.2 = i.pattern.1 := by
  rw [← encode_of_decodeWord h, encode_and_mask]

/-- Two patterns that fit one word agree where both masks look, and no two rows of the table do. -/
theorem eq_of_matches_of_matches {w : Word} {p q : Word × Word} (hp : p ∈ opcodeTable) (hq : q ∈ opcodeTable)
    (hwp : w &&& p.2 = p.1) (hwq : w &&& q.2 = q.1) : p = q := by
  have hagree : p.1 &&& q.2 = q.1 &&& p.2 := by rw [← hwp, ← hwq]; ac_rfl
  have hdisjoint : opcodeTable.Pairwise fun p q => p.1 &&& q.2 ≠ q.1 &&& p.2 := by decide
  have hsymm : Std.Symm fun p q : Word × Word => p.1 &&& q.2 ≠ q.1 &&& p.2 := ⟨fun _ _ => Ne.symm⟩
  by_contra hne
  exact hdisjoint.forall hp hq hne hagree

/-- The mask of a row covers the fields that choose the row's variant within its family. -/
theorem mask_covers_fields : ∀ p ∈ opcodeTable,
    fieldOp p.2 = .allOnes 4 ∧
    ((fieldOp p.1).toNat = 0x0 → fieldNnn p.2 = .allOnes 12) ∧
    ((fieldOp p.1).toNat ∈ [0x5, 0x8, 0x9] → fieldN p.2 = .allOnes 4) ∧
    ((fieldOp p.1).toNat ∈ [0xE, 0xF] → fieldKk p.2 = .allOnes 8) := by
  simp [opcodeTable, fieldOp, fieldN, fieldNnn, fieldKk]

theorem not_listedIllegal_of_row : ∀ p ∈ opcodeTable, ¬ ListedIllegal p.1 := by
  simp [ListedIllegal, opcodeTable, fieldOp, fieldN, fieldNnn, fieldKk]

/-- A word keeps the bits that a mask covers. -/
theorem extractLsb'_of_matches {w m v : Word} {start len : Nat} (hw : w &&& m = v)
    (hm : m.extractLsb' start len = .allOnes len) : v.extractLsb' start len = w.extractLsb' start len := by
  rw [← hw, BitVec.extractLsb'_and, hm, BitVec.and_allOnes]

/-- A word that matches a row has the fields of the row's own word, as far as the decoder looks at them. -/
theorem fields_of_matches {w : Word} {p : Word × Word} (hp : p ∈ opcodeTable) (hw : w &&& p.2 = p.1) :
    fieldOp p.1 = fieldOp w ∧
    ((fieldOp w).toNat = 0x0 → fieldNnn p.1 = fieldNnn w) ∧
    ((fieldOp w).toNat ∈ [0x5, 0x8, 0x9] → fieldN p.1 = fieldN w) ∧
    ((fieldOp w).toNat ∈ [0xE, 0xF] → fieldKk p.1 = fieldKk w) := by
  obtain ⟨hop, hnnn, hn, hkk⟩ := mask_covers_fields p hp
  have hop' : fieldOp p.1 = fieldOp w := extractLsb'_of_matches hw hop
  rw [hop'] at hnnn hn hkk
  exact ⟨hop', fun h => extractLsb'_of_matches hw (hnnn h), fun h => extractLsb'_of_matches hw (hn h),
    fun h => extractLsb'_of_matches hw (hkk h)⟩

/-- No word of a row is listed: being listed turns on fields the row fixes, and the row's own word is not. -/
theorem not_listedIllegal_of_matches {w : Word} {p : Word × Word} (hp : p ∈ opcodeTable) (hw : w &&& p.2 = p.1) :
    ¬ ListedIllegal w := by
  intro hlisted
  obtain ⟨hop, hnnn, hn, hkk⟩ := fields_of_matches hp hw
  refine not_listedIllegal_of_row p hp ?_
  rcases hlisted with ⟨h, hl⟩ | ⟨h, hl⟩ | ⟨h, hl⟩ | ⟨h, hl⟩ | ⟨h, hl⟩ | ⟨h, hl⟩
  · simpa [ListedIllegal, hop, hnnn h, h] using hl
  · simpa [ListedIllegal, hop, hn (by simp [h]), h] using hl
  · simpa [ListedIllegal, hop, hn (by simp [h]), h] using hl
  · simpa [ListedIllegal, hop, hn (by simp [h]), h] using hl
  · simpa [ListedIllegal, hop, hkk (by simp [h]), h] using hl
  · simpa [ListedIllegal, hop, hkk (by simp [h]), h] using hl

theorem decodeWord_eq_illegal_iff (w : Word) : decodeWord w = .illegal w ↔ ListedIllegal w := by
  refine ⟨fun h => (eq_and_listed_of_illegal h).2, fun hlisted => ?_⟩
  cases hd : decodeWord w with
  | illegal w' => rw [(eq_and_listed_of_illegal hd).1]
  | instr i =>
    exact absurd hlisted (not_listedIllegal_of_matches (pattern_mem_opcodeTable i) (matches_of_decodeWord hd))

/-- Settles O6, by reading the fields of the listed words as numbers. -/
theorem illegalWordsAreExactlyTheListed : Obligations.IllegalWordsAreExactlyTheListed := by
  intro w
  rw [decodeWord_eq_illegal_iff, ListedIllegal, fieldOp_toNat, fieldNnn_toNat, fieldN_toNat, fieldKk_toNat]
  refine or_congr_left (and_congr_right fun hop => ?_)
  simp only [List.mem_cons, List.not_mem_nil, or_false, not_or]
  omega

/-- Settles O5: the word matches its instruction's row and, the rows being disjoint, no other; a listed word matches none. -/
theorem decodeMatchesExactlyOnePattern : Obligations.DecodeMatchesExactlyOnePattern := by
  refine fun hi lo => ⟨fun i hd => ?_, fun w hd => ?_⟩
  · have hmatch := matches_of_decodeWord hd
    have hmem := pattern_mem_opcodeTable i
    exact ⟨hmem, hmatch, fun p hp hw => eq_of_matches_of_matches hp hmem hw hmatch⟩
  · obtain ⟨hword, hlisted⟩ := eq_and_listed_of_illegal hd
    exact ⟨hword, fun p hp hw => not_listedIllegal_of_matches hp hw hlisted⟩

end Sys2Proof

/-! Control flow (40_control_flow.md): jumps, the register skips, Call and Return, and the law that ties the last two. -/

namespace Sys2Proof.Machine

/-! ### Jumps and skips -/

theorem addrOperand_toNat (nnn : Addr12) : (addrOperand nnn).toNat = nnn.toNat :=
  BitVec.toNat_setWidth_of_le (by decide)

/-- A byte and a 12-bit address add up to less than 2^16, so the sum of JumpV0 never wraps (R129, log 18). -/
theorem jumpV0Target_toNat (s : State) (nnn : Addr12) :
    (jumpV0Target s nnn).toNat = (readV s 0).toNat + nnn.toNat := by
  have hv : ((readV s 0).setWidth 16).toNat = (readV s 0).toNat := BitVec.toNat_setWidth_of_le (by decide)
  have hsum : (readV s 0).toNat + nnn.toNat < 2 ^ 16 := by omega
  rw [jumpV0Target, BitVec.toNat_add, hv, addrOperand_toNat, Nat.mod_eq_of_lt hsum]

theorem onlyPc_jumpTo (s : State) (a : Addr) : onlyPc s (jumpTo s a) :=
  ⟨readV_congr rfl, memByte_congr rfl rfl, rfl⟩

theorem onlyPc_skipIf (s : State) (cond : Bool) : onlyPc s (skipIf s cond) := by
  cases cond
  · exact onlyPc_jumpTo s s.pc
  · exact onlyPc_jumpTo s (s.pc + 2)

theorem skipIf_pc_toNat (s : State) (cond : Prop) [Decidable cond] :
    (skipIf s (decide cond)).pc.toNat = if cond then (s.pc.toNat + 2) % 65536 else s.pc.toNat := by
  rw [skipIf_pc]
  by_cases h : cond <;> simp [h]

/-- Settles O28. -/
theorem jumpsSetPcToTheirAddress : Obligations.JumpsSetPcToTheirAddress := fun nnn s =>
  ⟨⟨_, rfl, addrOperand_toNat nnn, onlyPc_jumpTo s _⟩, ⟨_, rfl, jumpV0Target_toNat s nnn, onlyPc_jumpTo s _⟩⟩

/-- Settles O29: each skip is `skipIf` of its own comparison. -/
theorem skipsCompareAndSkip : Obligations.SkipsCompareAndSkip := fun _ _ _ s =>
  ⟨⟨_, rfl, onlyPc_skipIf s _, skipIf_pc_toNat s _⟩, ⟨_, rfl, onlyPc_skipIf s _, skipIf_pc_toNat s _⟩,
    ⟨_, rfl, onlyPc_skipIf s _, skipIf_pc_toNat s _⟩, ⟨_, rfl, onlyPc_skipIf s _, skipIf_pc_toNat s _⟩⟩

/-! ### Call and Return -/

/-- An executing instruction that raises its own fault leaves the state `faulted` (60_exceptions.md R177). -/
theorem raiseOwn_eq_faulted (s : State) (cause : Cause) : raiseOwn s cause = .next (faulted s cause) := rfl

theorem pop_of_sp_eq_succ {s : State} {k : Nat} (hk : k < 256) (hsp : s.sp.val = k + 1) :
    pop s = some (s.stack[k], { s with sp := ⟨k, Nat.lt_succ_of_lt hk⟩ }) := by
  cases hp : pop s with
  | none =>
    have hempty := pop_eq_none.1 hp
    omega
  | some p =>
    obtain ⟨j, hj, hjsp, htarget, hrest⟩ := pop_eq_some hp
    obtain rfl : j = k := by omega
    rw [← htarget, ← hrest]

theorem exec_call {s : State} (nnn : Addr12) (hs : s.sp.val < 256) :
    exec (.call nnn) s = .next (jumpTo
      { s with stack := s.stack.set s.sp.val s.pc hs, sp := ⟨s.sp.val + 1, Nat.succ_lt_succ hs⟩ } (addrOperand nnn)) := by
  rw [exec, execCall, push, dif_pos hs]

theorem exec_call_of_full {s : State} (nnn : Addr12) (hfull : s.sp.val = 256) :
    exec (.call nnn) s = .next (faulted s .stackOverflow) := by
  rw [exec, execCall, push_eq_none.2 hfull, raiseOwn_eq_faulted]

theorem exec_ret {s : State} {k : Nat} (hk : k < 256) (hsp : s.sp.val = k + 1) :
    exec .ret s = .next (jumpTo { s with sp := ⟨k, Nat.lt_succ_of_lt hk⟩ } s.stack[k]) := by
  rw [exec, execRet, pop_of_sp_eq_succ hk hsp]

theorem exec_ret_of_empty {s : State} (hempty : s.sp.val = 0) :
    exec .ret s = .next (faulted s .stackUnderflow) := by
  rw [exec, execRet, pop_eq_none.2 hempty, raiseOwn_eq_faulted]

/-- Settles O26. -/
theorem callPushesTheAdvancedPc : Obligations.CallPushesTheAdvancedPc := by
  refine fun nnn s => ⟨fun hs => ?_, exec_call_of_full nnn⟩
  refine ⟨_, exec_call nnn hs, addrOperand_toNat nnn, rfl, fun k hk => ?_, readV_congr rfl, memByte_congr rfl rfl, rfl⟩
  rw [jumpTo_stack, Vector.getElem_set]
  exact if_congr eq_comm rfl rfl

/-- Settles O27. -/
theorem returnPopsThePc : Obligations.ReturnPopsThePc := fun _ =>
  ⟨fun _ hk hsp => ⟨_, exec_ret hk hsp, rfl, rfl, readV_congr rfl, memByte_congr rfl rfl, rfl⟩, exec_ret_of_empty⟩

/-! ### The entries in use stay what they are -/

/-- No instruction writes a stack entry in use: Call, the only one that writes an entry, writes the first free one. -/
theorem Effect.stack_getElem_eq {i : Instr} {s t : State} {k : Nat} (h : Effect s i t) (hk : k < 256)
    (hused : k < s.sp.val) : t.stack[k] = s.stack[k] := by
  cases h with
  | calls hs => exact Vector.getElem_set_ne hs hk hused.ne'
  | _ => simp

theorem stack_getElem_eq_of_step {s t : State} {k : Nat} (hk : k < 256) (hused : k < s.sp.val)
    (h : step s = .next t) : t.stack[k] = s.stack[k] := by
  rcases step_cases s with ⟨-, h'⟩ | ⟨-, x, -, h'⟩ | ⟨-, -, h'⟩ | ⟨-, hi, lo, w, -, -, h'⟩ | ⟨-, i, -, h'⟩ <;>
    rw [h'] at h
  · cases h
    rfl
  · cases h
    rw [pollWait_stack]
  · cases h
    rfl
  · cases h
    rfl
  · exact (effect_of_exec h).stack_getElem_eq hk hused

/-- An entry keeps its value over a run that never takes the stack down to its level. -/
theorem stack_getElem_eq_of_run {k n : Nat} {s t : State} (hk : k < 256)
    (habove : ∀ m ≤ n, ∃ w : State, Host.Core.run Sys2Proof.core m s = .next w ∧ k < w.sp.val)
    (h : Host.Core.run Sys2Proof.core n s = .next t) : t.stack[k] = s.stack[k] := by
  induction n generalizing s with
  | zero =>
    cases h
    rfl
  | succ n ih =>
    obtain ⟨u, hu⟩ := everyStepAnswersNext s
    obtain ⟨w, hw, hused⟩ := habove 0 (Nat.zero_le _)
    cases hw
    have hrest : ∀ m ≤ n, ∃ w : State, Host.Core.run Sys2Proof.core m u = .next w ∧ k < w.sp.val := fun m hm =>
      run_succ m hu ▸ habove (m + 1) (Nat.succ_le_succ hm)
    exact (ih hrest (run_succ n hu ▸ h)).trans (stack_getElem_eq_of_step hk hused hu)

/-- Settles O25: the entry that Call pushes is still there when the matching Return pops it. -/
theorem returnGoesBackBehindItsCall : Obligations.ReturnGoesBackBehindItsCall := by
  intro nnn s t u n hready hcall hsp hstep habove hrun husp huready hret
  rw [step_of_fetchedInstr hready hcall, exec_call (s := advance (ticked s)) nnn hsp] at hstep
  cases hstep
  have hentry : u.stack[s.sp.val] = s.pc + 2 :=
    (stack_getElem_eq_of_run hsp habove hrun).trans (Vector.getElem_set_self hsp)
  exact ⟨_, (step_of_fetchedInstr huready hret).trans (exec_ret hsp husp), hentry, rfl⟩

end Sys2Proof.Machine

/-! Registers and ALU (41_alu.md): writes of one register, of a result and its flag, and repeated shifts. -/

namespace Sys2Proof.Machine

/-! ### Writes of one register -/

theorem readV_writeV_self (s : State) (x : RegIdx) (b : Byte) : readV (writeV s x b) x = b := by
  rw [readV_writeV, if_pos rfl]

theorem onlyRegisters_writeV (s : State) (x : RegIdx) (b : Byte) : onlyRegisters s (writeV s x b) [x] :=
  ⟨fun _ hr => readV_writeV_of_ne s b (List.ne_of_not_mem_cons hr), memByte_congr rfl rfl, rfl⟩

/-- Settles O30. -/
theorem movesAndAddConstWriteOneRegister : Obligations.MovesAndAddConstWriteOneRegister := by
  refine fun x y kk s => ⟨⟨_, rfl, readV_writeV_self s x kk, onlyRegisters_writeV s x _⟩,
    ⟨_, rfl, ?_, onlyRegisters_writeV s x _⟩, ⟨_, rfl, readV_writeV_self s x _, onlyRegisters_writeV s x _⟩⟩
  rw [readV_writeV_self, BitVec.toNat_add]

/-- Settles O31: the bits of the bitwise operations on the two bytes. -/
theorem bitwiseInstructionsActBitByBit : Obligations.BitwiseInstructionsActBitByBit := by
  refine fun x y s => ⟨⟨_, rfl, onlyRegisters_writeV s x _, fun k _ => ?_⟩,
    ⟨_, rfl, onlyRegisters_writeV s x _, fun k _ => ?_⟩, ⟨_, rfl, onlyRegisters_writeV s x _, fun k _ => ?_⟩⟩
  · rw [readV_writeV_self, BitVec.getLsbD_or]
  · rw [readV_writeV_self, BitVec.getLsbD_and]
  · rw [readV_writeV_self, BitVec.getLsbD_xor]

theorem randByte_of_queued {s : State} {b : Byte} {rest : List Byte} (h : s.rands.queued = b :: rest) :
    randByte s = (b, { s with rands := ⟨rest, s.rands.drawn + 1⟩ }) := by
  rw [randByte, draw_queued _ _ _ _ h]

theorem exec_rand (x : RegIdx) (kk : Byte) (s : State) :
    exec (.rand x kk) s = .next (writeV (randByte s).2 x ((randByte s).1 &&& kk)) := rfl

/-- Settles O36: the byte is the answer of `RandByte()`. -/
theorem randMasksOneDrawnByte : Obligations.RandMasksOneDrawnByte := by
  refine fun x kk s => ⟨_, _, exec_rand x kk s, readV_writeV_self _ x _, fun r hr => readV_writeV_of_ne _ _ hr,
    memByte_congr rfl rfl, rfl, draw_drawn _ s.rands, fun b rest hq => ?_⟩
  rw [writeV_rands, randByte_of_queued hq]
  exact ⟨rfl, rfl⟩

/-! ### A result and then its flag -/

theorem onlyRegisters_writeResultThenFlag (s : State) (x : RegIdx) (result flag : Byte) :
    onlyRegisters s (writeResultThenFlag s x result flag) [x, vf] := by
  refine ⟨fun r hr => ?_, memByte_congr rfl rfl, rfl⟩
  simp only [List.mem_cons, List.not_mem_nil, or_false, not_or] at hr
  obtain ⟨hx, hvf⟩ := hr
  rw [readV_writeResultThenFlag, if_neg hvf, if_neg hx]

theorem readV_vf_writeResultThenFlag (s : State) (x : RegIdx) (result flag : Byte) :
    readV (writeResultThenFlag s x result flag) vf = flag := by
  rw [readV_writeResultThenFlag, if_pos rfl]

theorem readV_writeResultThenFlag_of_ne_vf {x : RegIdx} (s : State) (result flag : Byte) (hx : x ≠ vf) :
    readV (writeResultThenFlag s x result flag) x = result := by
  rw [readV_writeResultThenFlag, if_neg hx, if_pos rfl]

/-- An instruction that ends in `writeResultThenFlag` leaves its flag, and its result unless `x = 15` (R28). -/
theorem exec_leaves_result_and_flag {i : Instr} {s : State} {x : RegIdx} {result flag : Byte} {m n : Nat}
    (hexec : exec i s = .next (writeResultThenFlag s x result flag)) (hresult : result.toNat = m)
    (hflag : flag.toNat = n) :
    ∃ t, exec i s = .next t ∧ (x ≠ vf → (readV t x).toNat = m) ∧ (readV t vf).toNat = n ∧
      onlyRegisters s t [x, vf] := by
  refine ⟨_, hexec, fun hx => ?_, ?_, onlyRegisters_writeResultThenFlag s x result flag⟩
  · rw [readV_writeResultThenFlag_of_ne_vf s result flag hx, hresult]
  · rw [readV_vf_writeResultThenFlag, hflag]

theorem flagOf_toNat (cond : Prop) [Decidable cond] : (flagOf (decide cond)).toNat = if cond then 1 else 0 := by
  by_cases h : cond <;> simp [flagOf, h]

theorem lowBitFlag_toNat (a : Byte) : (lowBitFlag a).toNat = a.toNat % 2 := by
  rw [lowBitFlag, BitVec.toNat_and]
  exact Nat.and_one_is_mod a.toNat

theorem highBitFlag_toNat (a : Byte) : (highBitFlag a).toNat = a.toNat / 128 := by
  have hbit : a.toNat / 128 < 2 := by omega
  rw [highBitFlag, BitVec.toNat_and, BitVec.toNat_ushiftRight, Nat.shiftRight_eq_div_pow]
  exact (Nat.and_one_is_mod _).trans (Nat.mod_eq_of_lt hbit)

theorem byte_sub_toNat (a b : Byte) : (a - b).toNat = (256 + a.toNat - b.toNat) % 256 := by
  rw [BitVec.toNat_sub]
  omega

theorem byte_shiftRight_toNat (a : Byte) (k : Nat) : (a >>> k).toNat = a.toNat / 2 ^ k := by
  rw [BitVec.toNat_ushiftRight, Nat.shiftRight_eq_div_pow]

theorem byte_shiftLeft_toNat (a : Byte) (k : Nat) : (a <<< k).toNat = a.toNat * 2 ^ k % 256 := by
  rw [BitVec.toNat_shiftLeft, Nat.shiftLeft_eq]

/-- Settles O32. -/
theorem addRegWrapsAndSetsCarry : Obligations.AddRegWrapsAndSetsCarry := fun _ _ _ =>
  exec_leaves_result_and_flag rfl (BitVec.toNat_add _ _) (flagOf_toNat _)

/-- Settles O33: the two instructions differ in the order of their operands only. -/
theorem subtractionsWrapAndSetNotBorrow : Obligations.SubtractionsWrapAndSetNotBorrow := fun _ _ _ =>
  ⟨exec_leaves_result_and_flag rfl (byte_sub_toNat _ _) (flagOf_toNat _),
    exec_leaves_result_and_flag rfl (byte_sub_toNat _ _) (flagOf_toNat _)⟩

/-! ### Shifts -/

/-- Updates `Vx` and then writes a flag, both taken from the old `Vx`: what a shift does (41_alu.md R142, R144). -/
def updateThenFlag (x : RegIdx) (f flag : Byte → Byte) (s : State) : State :=
  writeResultThenFlag s x (f (readV s x)) (flag (readV s x))

theorem exec_shiftLeft (x y : RegIdx) (s : State) :
    exec (.shiftLeft x y) s = .next (updateThenFlag x (· <<< 1) highBitFlag s) := rfl

theorem exec_shiftRight (x y : RegIdx) (s : State) :
    exec (.shiftRight x y) s = .next (updateThenFlag x (· >>> 1) lowBitFlag s) := rfl

/-- Settles O34: neither meaning mentions `y`. -/
theorem shiftsMoveOneBitIntoVf : Obligations.ShiftsMoveOneBitIntoVf := by
  refine fun x y s => ⟨exec_leaves_result_and_flag (exec_shiftRight x y s) (byte_shiftRight_toNat _ 1)
    (lowBitFlag_toNat _), exec_leaves_result_and_flag (exec_shiftLeft x y s) ?_ (highBitFlag_toNat _),
    fun y' => ⟨?_, ?_⟩⟩
  · rw [byte_shiftLeft_toNat, Nat.mul_comm, pow_one]
  · rw [exec_shiftRight, exec_shiftRight]
  · rw [exec_shiftLeft, exec_shiftLeft]

theorem readV_iterate_updateThenFlag {x : RegIdx} (f flag : Byte → Byte) (s : State) (hx : x ≠ vf) (k : Nat) :
    readV ((updateThenFlag x f flag)^[k] s) x = f^[k] (readV s x) := by
  induction k with
  | zero => rfl
  | succ k ih =>
    rw [Function.iterate_succ_apply', updateThenFlag, readV_writeResultThenFlag_of_ne_vf _ _ _ hx, ih,
      Function.iterate_succ_apply']

/-- A run of one instruction that updates `Vx` and then writes a flag: the k-th flag is that of the k-th iterate. -/
theorem exists_run_of_updateThenFlag {i : Instr} {x : RegIdx} {f flag : Byte → Byte} (s : State) (hx : x ≠ vf)
    (hexec : ∀ s, exec i s = .next (updateThenFlag x f flag s)) :
    ∃ g : Nat → State, g 0 = s ∧ ∀ k, exec i (g k) = .next (g (k + 1)) ∧ readV (g k) x = f^[k] (readV s x) ∧
      readV (g (k + 1)) vf = flag (f^[k] (readV s x)) := by
  refine ⟨fun k => (updateThenFlag x f flag)^[k] s, rfl, fun k => ?_⟩
  have hread := readV_iterate_updateThenFlag f flag s hx k
  simp only [Function.iterate_succ_apply']
  refine ⟨hexec _, hread, ?_⟩
  rw [updateThenFlag, readV_vf_writeResultThenFlag, hread]

theorem iterate_shiftLeft_one (a : Byte) (k : Nat) : (fun b : Byte => b <<< 1)^[k] a = a <<< k := by
  induction k with
  | zero => exact (BitVec.shiftLeft_zero a).symm
  | succ k ih => rw [Function.iterate_succ_apply', ih, BitVec.shiftLeft_add]

theorem iterate_shiftRight_one (a : Byte) (k : Nat) : (fun b : Byte => b >>> 1)^[k] a = a >>> k := by
  induction k with
  | zero => exact (BitVec.ushiftRight_zero a).symm
  | succ k ih => rw [Function.iterate_succ_apply', ih, BitVec.shiftRight_add]

/-- Bit 7 of a byte shifted left by k places is its bit 7 - k. -/
theorem highBitFlag_shiftLeft_toNat {k : Nat} (a : Byte) (hk : k < 8) :
    (highBitFlag (a <<< k)).toNat = a.toNat / 2 ^ (7 - k) % 2 := by
  have hpow : 2 ^ (7 - k) * 2 ^ k = 128 := by rw [← pow_add, Nat.sub_add_cancel (Nat.le_of_lt_succ hk)]; rfl
  calc (highBitFlag (a <<< k)).toNat
      = a.toNat * 2 ^ k % (128 * 2) / 128 := by rw [highBitFlag_toNat, byte_shiftLeft_toNat]
    _ = a.toNat * 2 ^ k / 128 % 2 := Nat.mod_mul_right_div_self _ _ _
    _ = a.toNat * 2 ^ k / (2 ^ (7 - k) * 2 ^ k) % 2 := by rw [hpow]
    _ = a.toNat / 2 ^ (7 - k) % 2 := by rw [Nat.mul_div_mul_right _ _ (Nat.two_pow_pos k)]

theorem lowBitFlag_shiftRight_toNat (a : Byte) (k : Nat) : (lowBitFlag (a >>> k)).toNat = a.toNat / 2 ^ k % 2 := by
  rw [lowBitFlag_toNat, byte_shiftRight_toNat]

/-- Settles O35: after k shifts the byte is `Vx` shifted by k places, and the next shift evicts a bit of that byte. -/
theorem repeatedShiftsEvictOneBitEach : Obligations.RepeatedShiftsEvictOneBitEach := by
  intro x y s hx
  constructor
  · obtain ⟨g, hstart, hg⟩ := exists_run_of_updateThenFlag s hx (exec_shiftLeft x y)
    refine ⟨g, hstart, fun k => ?_⟩
    obtain ⟨hexec, hbyte, hflag⟩ := hg k
    rw [iterate_shiftLeft_one] at hbyte hflag
    exact ⟨hexec, hbyte ▸ byte_shiftLeft_toNat _ k, fun hk => hflag ▸ highBitFlag_shiftLeft_toNat _ hk⟩
  · obtain ⟨g, hstart, hg⟩ := exists_run_of_updateThenFlag s hx (exec_shiftRight x y)
    refine ⟨g, hstart, fun k => ?_⟩
    obtain ⟨hexec, hbyte, hflag⟩ := hg k
    rw [iterate_shiftRight_one] at hbyte hflag
    exact ⟨hexec, hbyte ▸ byte_shiftRight_toNat _ k, hflag ▸ lowBitFlag_shiftRight_toNat _ k⟩

end Sys2Proof.Machine

/-! Index register and memory (42_memory_index.md): what writes `I`, the block check, and the three blocks moved at `I`. -/

namespace Sys2Proof.Machine

/-! ### The index register -/

/-- An instruction other than SetI, AddToI and SetIToFontAddr leaves `I` unchanged, whatever it does (R152). -/
theorem Effect.i_eq {i : Instr} {s t : State} (h : Effect s i t) (hset : ∀ nnn, i ≠ .setI nnn)
    (hadd : ∀ x, i ≠ .addToI x) (hfont : ∀ x, i ≠ .setIToFontAddr x) : t.i = s.i := by
  cases h with
  | setsI => exact absurd rfl (hset _)
  | addsToI => exact absurd rfl (hadd _)
  | setsIToFont => exact absurd rfl (hfont _)
  | _ => simp

/-- Settles O15. -/
theorem indexRegisterWrittenByThreeOnly : Obligations.IndexRegisterWrittenByThreeOnly :=
  fun _ _ _ h => (effect_of_exec h).i_eq

theorem onlyI_setIndex (s : State) (a : Addr) : onlyI s { s with i := a } :=
  ⟨readV_congr rfl, memByte_congr rfl rfl, rfl⟩

/-- Settles O37. -/
theorem setISetsTheAddress : Obligations.SetISetsTheAddress := fun nnn s =>
  ⟨_, rfl, addrOperand_toNat nnn, onlyI_setIndex s _⟩

theorem add_byte_toNat (a : Addr) (b : Byte) : (a + b.setWidth 16).toNat = (a.toNat + b.toNat) % 65536 := by
  rw [BitVec.toNat_add, BitVec.toNat_setWidth_of_le (by decide)]

/-- `5 * 255` is less than 2^16, so no glyph address wraps (R155). -/
theorem glyphAddr_toNat (b : Byte) : (glyphAddr b).toNat = 5 * b.toNat := by
  have hsmall : 5 * b.toNat < 2 ^ 16 := by omega
  rw [glyphAddr, BitVec.toNat_mul, BitVec.toNat_setWidth_of_le (by decide)]
  exact Nat.mod_eq_of_lt hsmall

/-- Settles O38. -/
theorem indexArithmeticWritesNoFlag : Obligations.IndexArithmeticWritesNoFlag := fun _ s =>
  ⟨⟨_, rfl, add_byte_toNat _ _, onlyI_setIndex s _⟩, ⟨_, rfl, glyphAddr_toNat _, onlyI_setIndex s _⟩⟩

/-! ### The block check -/

/-- Draw, StoreBCD, RegDump and RegLoad look at the check before anything else; no other instruction has a block. -/
theorem exec_of_firstOutOfRange {i : Instr} {s : State} {a : Nat} (h : firstOutOfRange s i.blockLength = some a) :
    exec i s = .next (faulted s (.memBounds a)) := by
  cases i with
  | draw x y n =>
    rw [exec, execDraw, show firstOutOfRange s n.toNat = some a from h]
    exact raiseOwn_eq_faulted s _
  | storeBCD x =>
    rw [exec, execStoreBCD, show firstOutOfRange s 3 = some a from h]
    exact raiseOwn_eq_faulted s _
  | regDump x =>
    rw [exec, execRegDump, show firstOutOfRange s (x.toNat + 1) = some a from h]
    exact raiseOwn_eq_faulted s _
  | regLoad x =>
    rw [exec, execRegLoad, show firstOutOfRange s (x.toNat + 1) = some a from h]
    exact raiseOwn_eq_faulted s _
  | _ => exact absurd (firstOutOfRange_eq_some.1 h).1 (Nat.lt_irrefl 0)

/-- Settles O13: the smallest address outside memory is `I` itself or 4096. -/
theorem blockOutsideMemoryFaultsBeforeAnyWrite : Obligations.BlockOutsideMemoryFaultsBeforeAnyWrite := by
  intro i s hpos hout
  have hfirst : s.i.toNat + (max s.i.toNat 4096 - s.i.toNat) = max s.i.toNat 4096 := by omega
  refine ⟨max s.i.toNat 4096 - s.i.toNat, by omega, by omega, fun j hj => by omega, ?_⟩
  rw [hfirst]
  exact exec_of_firstOutOfRange (firstOutOfRange_eq_some.2 ⟨hpos, hout, rfl⟩)

/-! ### Blocks that are stored -/

/-- Storing bytes changes memory and nothing else of a state. -/
theorem storeBytes_frame (s : State) (a : Nat) (bs : List Byte) :
    sameRegisters s (storeBytes s a bs) ∧ storeBytes s a bs = { s with mem := (storeBytes s a bs).mem } :=
  ⟨readV_congr (storeBytes_v s a bs), storeBytes_eq s a bs⟩

theorem exec_storeBCD {x : RegIdx} {s : State} (hblock : s.i.toNat + 3 ≤ 4096) :
    exec (.storeBCD x) s = .next (storeBytes s s.i.toNat (bcdDigits (readV s x))) := by
  rw [exec, execStoreBCD, firstOutOfRange_eq_none.2 (.inr hblock)]
  rfl

/-- The three stored digits as numbers; each is less than 256, so it fits its byte (R156). -/
theorem memByte_storeBytes_bcdDigits (s : State) (a : Nat) (b : Byte) :
    (memByte (storeBytes s a (bcdDigits b)) a).toNat = b.toNat / 100 ∧
    (memByte (storeBytes s a (bcdDigits b)) (a + 1)).toNat = b.toNat / 10 % 10 ∧
    (memByte (storeBytes s a (bcdDigits b)) (a + 2)).toNat = b.toNat % 10 := by
  have hread : ∀ k (hk : k < 3), memByte (storeBytes s a (bcdDigits b)) (a + k) = (bcdDigits b)[k] := fun _ hk =>
    memByte_storeBytes_add s a hk
  refine ⟨(congrArg BitVec.toNat (hread 0 (by decide))).trans (Nat.mod_eq_of_lt ?_),
    (congrArg BitVec.toNat (hread 1 (by decide))).trans (Nat.mod_eq_of_lt ?_),
    (congrArg BitVec.toNat (hread 2 (by decide))).trans (Nat.mod_eq_of_lt ?_)⟩ <;> omega

/-- Settles O39: the sum and the example follow from the three digits. -/
theorem storeBCDWritesTheDecimalDigits : Obligations.StoreBCDWritesTheDecimalDigits := by
  intro x s hblock
  obtain ⟨hhundreds, htens, hones⟩ := memByte_storeBytes_bcdDigits s s.i.toNat (readV s x)
  refine ⟨_, exec_storeBCD hblock, hhundreds, htens, hones, by omega, fun h184 => ?_,
    fun a ha => memByte_storeBytes_of_notMem s ha, storeBytes_frame s _ _⟩
  rw [h184] at hhundreds htens hones ⊢
  exact ⟨BitVec.eq_of_toNat_eq hhundreds, BitVec.eq_of_toNat_eq htens, BitVec.eq_of_toNat_eq hones⟩

/-- Settles O40. -/
theorem regDumpStoresTheRegisters : Obligations.RegDumpStoresTheRegisters := by
  intro x s hblock
  refine ⟨_, exec_regDump hblock, fun k hk => ?_, fun a ha => memByte_storeBytes_of_notMem s ?_, storeBytes_frame s _ _⟩
  · rw [memByte_storeBytes_dumpedBytes s _ hk, BitVec.ofNat_toNat, BitVec.setWidth_eq]
  · rwa [dumpedBytes_length]

/-! ### Registers that are loaded -/

theorem exec_regLoad {x : RegIdx} {s : State} (hblock : s.i.toNat + x.toNat < 4096) :
    exec (.regLoad x) s = .next (loadRegs s (x.toNat + 1)) := by
  rw [exec, execRegLoad, firstOutOfRange_eq_none.2 (.inr hblock)]

/-- Settles O41. -/
theorem regLoadLoadsTheRegisters : Obligations.RegLoadLoadsTheRegisters := by
  intro x s hblock
  have hread := readV_loadRegs s (x.toNat + 1) x.isLt
  refine ⟨_, exec_regLoad hblock, fun k hk => ?_, fun k hk => ?_,
    memByte_congr (loadRegs_mem s _) (loadRegs_cfg s _), loadRegs_eq s _⟩
  · exact (hread k).trans (if_pos (Nat.lt_succ_of_le hk))
  · exact (hread k).trans (if_neg (Nat.not_lt.2 hk))

theorem readV_zeroedRegisters (s : State) (k : RegIdx) : readV { s with v := Vector.replicate 16 0 } k = 0 :=
  Vector.getElem_replicate k.isLt

/-- Settles O42: RegDump leaves `I` where it was, so RegLoad reads back the bytes that were stored. -/
theorem dumpThenLoadRestoresTheRegisters : Obligations.DumpThenLoadRestoresTheRegisters := by
  intro x s hblock
  obtain ⟨t, ht, hstored, -, hregs, hframe⟩ := regDumpStoresTheRegisters x s hblock
  have hi : t.i = s.i := by rw [hframe]
  obtain ⟨u, hu, hloaded, habove, -⟩ :=
    regLoadLoadsTheRegisters x { t with v := Vector.replicate 16 0 } (by rw [hi]; exact hblock)
  refine ⟨t, u, ht, hu, fun k hk => ?_, fun k hk => ⟨hregs k, ?_⟩⟩
  · calc readV u k
        = memByte t (t.i.toNat + k.toNat) := hloaded k hk
      _ = readV s k := by rw [hi, hstored k hk]
  · rw [habove k hk, readV_zeroedRegisters]

end Sys2Proof.Machine

/-! Display (43_display.md): ClearScreen, and Draw as a blit of the visits its sprite makes, numbered in visiting order. -/

namespace Sys2Proof.Machine

/-! ### ClearScreen -/

/-- Settles O43. -/
theorem clearScreenClearsEveryCell : Obligations.ClearScreenClearsEveryCell := fun s =>
  ⟨_, rfl, fbGet_fbClear s.cfg, readV_congr rfl, memByte_congr rfl rfl, rfl⟩

/-! ### The visits of a Draw -/

/-- The k-th visit of a Draw, in the words of the statements (43_display.md R161, R162). -/
def visitAt (s : State) (x y : RegIdx) (k : Nat) : Visit := ⟨visitX s x k, visitY s y k, spriteBit s k⟩

theorem spriteVisits_eq_map_visitAt (s : State) (x y : RegIdx) (n : Nat) :
    spriteVisits s (readV s x).toNat (readV s y).toNat n = (List.range (8 * n)).map (visitAt s x y) :=
  spriteVisits_eq s _ _ n

theorem toggles_map_visitAt (s : State) (x y : RegIdx) (p : Pixel) (m : Nat) :
    toggles s.cfg p ((List.range m).map (visitAt s x y)) = togglesOf s x y p m :=
  List.countP_map

/-- Only the policy `fault` asks, and then every visit is on the grid. -/
theorem firstOffGrid_eq_none {s : State} {x y : RegIdx} {n : Nibble}
    (hbox : s.cfg.offGrid = .fault → boxOnGrid s x y n) :
    firstOffGrid s.cfg ((List.range (8 * n.toNat)).map (visitAt s x y)) = none := by
  rw [firstOffGrid]
  split
  · next hfault =>
    rw [List.find?_map, Option.map_eq_none_iff, List.find?_range_eq_none]
    exact fun k hk => (Bool.not_not _).trans (decide_eq_true (hbox hfault k hk))
  · rfl

theorem firstOffGrid_eq_some {s : State} {x y : RegIdx} {m k : Nat} (hfault : s.cfg.offGrid = .fault) (hk : k < m)
    (hoff : ¬ s.cfg.onGrid (visitX s x k) (visitY s y k))
    (hfirst : ∀ j < k, s.cfg.onGrid (visitX s x j) (visitY s y j)) :
    firstOffGrid s.cfg ((List.range m).map (visitAt s x y)) = some (visitAt s x y k) := by
  rw [firstOffGrid, if_pos hfault, List.find?_map, Option.map_eq_some_iff]
  refine ⟨k, List.find?_range_eq_some.2 ⟨?_, List.mem_range.2 hk, fun j hj => ?_⟩, rfl⟩
  · exact congrArg not (decide_eq_false hoff)
  · exact (Bool.not_not _).trans (decide_eq_true (hfirst j hj))

theorem togglesOf_succ (s : State) (x y : RegIdx) (p : Pixel) (m : Nat) :
    togglesOf s x y p (m + 1) = togglesOf s x y p m +
      if spriteBit s m = true ∧ resolveCell s.cfg (visitX s x m) (visitY s y m) = some p then 1 else 0 := by
  simp [togglesOf, List.range_succ, List.countP_append, List.countP_singleton]

/-- On the grid, visit j stands for the cell of visit k only if it is visit k: k is 8 times its row plus its column. -/
theorem resolveCell_visit_eq_iff {s : State} {x y : RegIdx} {j k : Nat}
    (hg : s.cfg.onGrid (visitX s x j) (visitY s y j)) :
    resolveCell s.cfg (visitX s x j) (visitY s y j) = some ⟨visitX s x k, visitY s y k⟩ ↔ j = k := by
  rw [resolveCell_onGrid hg, Option.some.injEq, Pixel.mk.injEq]
  unfold visitX visitY
  omega

/-- With the box on the grid, the one visit that can flip the cell of visit k is visit k. -/
theorem togglesOf_visited {s : State} {x y : RegIdx} {n : Nibble} (hbox : boxOnGrid s x y n) (k : Nat) {m : Nat}
    (hm : m ≤ 8 * n.toNat) :
    togglesOf s x y ⟨visitX s x k, visitY s y k⟩ m = if k < m ∧ spriteBit s k = true then 1 else 0 := by
  induction m with
  | zero => simp [togglesOf]
  | succ m ih =>
    rw [togglesOf_succ, ih (by omega)]
    simp only [resolveCell_visit_eq_iff (hbox m hm)]
    rcases lt_trichotomy k m with hlt | rfl | hgt
    · simp [hlt, hlt.ne', Nat.lt_succ_of_lt hlt]
    · simp
    · have hnot : ¬ k < m + 1 := by omega
      simp [hgt.not_gt, hgt.ne, hnot]

/-! ### What a Draw answers -/

/-- The screen and the collision that Draw's visits make of a state's screen. -/
def drawn (s : State) (x y : RegIdx) (n : Nibble) : List Pixel × Bool :=
  blit s.cfg ((List.range (8 * n.toNat)).map (visitAt s x y)) s.fb false

theorem firstOutOfRange_of_spriteInMemory {s : State} {n : Nibble} (hmem : spriteInMemory s n) :
    firstOutOfRange s n.toNat = none :=
  firstOutOfRange_eq_none.2 (hmem.imp_left (congrArg BitVec.toNat))

/-- A Draw whose two checks pass writes the screen and then the flag (43_display.md R165). -/
theorem exec_draw {x y : RegIdx} {n : Nibble} {s : State} (hmem : spriteInMemory s n)
    (hbox : s.cfg.offGrid = .fault → boxOnGrid s x y n) :
    exec (.draw x y n) s =
      .next (writeV { s with fb := (drawn s x y n).1 } vf (collisionFlag (drawn s x y n).2)) := by
  rw [exec, execDraw, firstOutOfRange_of_spriteInMemory hmem]
  simp only [spriteVisits_eq_map_visitAt, firstOffGrid_eq_none hbox]
  rfl

/-- Settles O50: the block check passes, and the first visit off the grid is the k-th. -/
theorem drawOffTheGridFaultsUnderFault : Obligations.DrawOffTheGridFaultsUnderFault := by
  intro x y n s k hfault hmem hk hoff hfirst
  rw [exec, execDraw, firstOutOfRange_of_spriteInMemory hmem]
  simp only [spriteVisits_eq_map_visitAt, firstOffGrid_eq_some hfault hk hoff hfirst]
  rfl

/-- Settles O44: a blit flips a cell as often as visits with bit 1 stand for it. -/
theorem drawXorsTheSpriteOntoTheGrid : Obligations.DrawXorsTheSpriteOntoTheGrid := by
  intro x y n s hmem hbox
  refine ⟨_, exec_draw hmem hbox, fun cx cy hg => ?_, fun r hr => readV_writeV_of_ne _ _ hr, memByte_congr rfl rfl, rfl⟩
  rw [writeV_cfg, writeV_fb, drawn, fbGet_blit _ _ _ _ (resolveCell_onGrid hg), toggles_map_visitAt]

/-! ### The collision flag -/

theorem collisionFlag_eq_zero_or_one (b : Bool) : collisionFlag b = 0 ∨ collisionFlag b = 1 := by
  cases b <;> simp [collisionFlag, flagOf]

theorem collisionFlag_eq_one_iff (b : Bool) : collisionFlag b = 1 ↔ b = true := by
  cases b <;> simp [collisionFlag, flagOf]

theorem collisionFlag_toNat (b : Bool) : (collisionFlag b).toNat = if b = true then 1 else 0 := by
  cases b <;> rfl

/-- A Draw collides iff some visit with bit 1 found its cell lit, the flips of the visits before it counted (R163). -/
theorem drawn_collides_iff (s : State) (x y : RegIdx) (n : Nibble) :
    (drawn s x y n).2 = true ↔ ∃ k < 8 * n.toNat, ∃ p, resolveCell s.cfg (visitX s x k) (visitY s y k) = some p ∧
      spriteBit s k = true ∧ (fbGet s.cfg s.fb p.x p.y ^^ decide (togglesOf s x y p k % 2 = 1)) = true := by
  rw [drawn, flag_blit, or_iff_right Bool.false_ne_true]
  simp only [List.length_map, List.length_range, List.getElem_map, List.getElem_range, exists_prop, visitAt]
  refine exists_congr fun k => and_congr_right fun hk => exists_congr fun p => ?_
  rw [← List.map_take, List.take_range, Nat.min_eq_left hk.le, ← toggles_map_visitAt]

/-- Settles O45. -/
theorem drawFlagIsTheCollisionInVisitingOrder : Obligations.DrawFlagIsTheCollisionInVisitingOrder := by
  intro x y n s t hmem hbox hexec
  rw [exec_draw hmem hbox] at hexec
  cases hexec
  rw [readV_writeV_self]
  exact ⟨collisionFlag_eq_zero_or_one _, (collisionFlag_eq_one_iff _).trans (drawn_collides_iff s x y n)⟩

/-- With the box on the grid no earlier visit flips a visited cell, so what counts is the screen before the Draw. -/
theorem drawn_collides_iff_of_boxOnGrid {s : State} {x y : RegIdx} {n : Nibble} (hbox : boxOnGrid s x y n) :
    (drawn s x y n).2 = true ↔ ∃ k < 8 * n.toNat, spriteBit s k = true ∧
      fbGet s.cfg s.fb (visitX s x k) (visitY s y k) = true := by
  rw [drawn_collides_iff]
  refine exists_congr fun k => and_congr_right fun hk => ?_
  simp [resolveCell_onGrid (hbox k hk), togglesOf_visited hbox k hk.le]

/-- Settles O46. -/
theorem drawCollidesIffALitCellIsHit : Obligations.DrawCollidesIffALitCellIsHit := by
  intro x y n s hmem hbox
  refine ⟨_, exec_draw hmem fun _ => hbox, ?_⟩
  rw [readV_writeV_self, collisionFlag_toNat]
  exact if_congr (drawn_collides_iff_of_boxOnGrid hbox) rfl rfl

/-! ### Draws with their box on the grid, one and then another -/

section

variable {s t : State} {x y : RegIdx} {n : Nibble}

theorem fbGet_of_draw {cx cy : Nat} (hmem : spriteInMemory s n) (hbox : boxOnGrid s x y n)
    (ht : exec (.draw x y n) s = .next t) (hg : s.cfg.onGrid cx cy) :
    fbGet s.cfg t.fb cx cy =
      (fbGet s.cfg s.fb cx cy ^^ decide (togglesOf s x y ⟨cx, cy⟩ (8 * n.toNat) % 2 = 1)) := by
  obtain ⟨t', ht', hfb, -⟩ := drawXorsTheSpriteOntoTheGrid x y n s hmem fun _ => hbox
  cases ht.symm.trans ht'
  rw [← hfb cx cy hg, (effect_of_exec ht).cfg_eq]

/-- A Draw XORs the sprite's bit onto each cell it visits (43_display.md R162). -/
theorem fbGet_visited_of_draw {k : Nat} (hmem : spriteInMemory s n) (hbox : boxOnGrid s x y n)
    (ht : exec (.draw x y n) s = .next t) (hk : k < 8 * n.toNat) :
    fbGet s.cfg t.fb (visitX s x k) (visitY s y k) =
      (fbGet s.cfg s.fb (visitX s x k) (visitY s y k) ^^ spriteBit s k) := by
  rw [fbGet_of_draw hmem hbox ht (hbox k hk), togglesOf_visited hbox k le_rfl]
  cases spriteBit s k <;> simp [hk]

/-- A cell under no 1 bit of a Draw reads as before. -/
theorem fbGet_of_draw_of_unhit {cx cy : Nat} (hmem : spriteInMemory s n) (hbox : boxOnGrid s x y n)
    (ht : exec (.draw x y n) s = .next t) (hg : s.cfg.onGrid cx cy)
    (hunhit : ∀ k < 8 * n.toNat, spriteBit s k = true → ¬ (visitX s x k = cx ∧ visitY s y k = cy)) :
    fbGet s.cfg t.fb cx cy = fbGet s.cfg s.fb cx cy := by
  have hnone : togglesOf s x y ⟨cx, cy⟩ (8 * n.toNat) = 0 := by
    rw [togglesOf, List.countP_eq_zero]
    intro k hmemRange
    have hk : k < 8 * n.toNat := List.mem_range.1 hmemRange
    simpa [resolveCell_onGrid (hbox k hk)] using hunhit k hk
  rw [fbGet_of_draw hmem hbox ht hg, hnone]
  exact Bool.xor_false _

/-- A Draw that meets no lit cell under its 1 bits leaves `VF = 0`. -/
theorem readV_vf_of_draw_of_unlit (hmem : spriteInMemory s n) (hbox : boxOnGrid s x y n)
    (ht : exec (.draw x y n) s = .next t)
    (hunlit : ∀ k < 8 * n.toNat, spriteBit s k = true → fbGet s.cfg s.fb (visitX s x k) (visitY s y k) = false) :
    readV t vf = 0 := by
  obtain ⟨t', ht', hflag⟩ := drawCollidesIffALitCellIsHit x y n s hmem hbox
  cases ht.symm.trans ht'
  rw [if_neg] at hflag
  · exact BitVec.eq_of_toNat_eq hflag
  · rintro ⟨k, hk, hbit, hlit⟩
    rw [hunlit k hk hbit] at hlit
    cases hlit

/-- Drawing on the screen that the first Draw left visits the same cells with the same bits, and two flips cancel. -/
theorem fb_of_draw_twice {u : State} (hmem : spriteInMemory s n) (hbox : boxOnGrid s x y n)
    (hcanon : s.cfg.canonicalCells s.fb) (ht : exec (.draw x y n) s = .next t)
    (hu : exec (.draw x y n) { s with fb := t.fb } = .next u) : u.fb = s.fb := by
  have hcanonT : s.cfg.canonicalCells t.fb :=
    (effect_of_exec ht).cfg_eq ▸ (effect_of_exec ht).screen_canonical hcanon
  have hcanonU : s.cfg.canonicalCells u.fb :=
    (effect_of_exec hu).cfg_eq ▸ (effect_of_exec hu).screen_canonical hcanonT
  refine equalReadingIsEqualData.2 _ _ _ hcanonU hcanon fun cx cy hg => ?_
  calc fbGet s.cfg u.fb cx cy
      = (fbGet s.cfg t.fb cx cy ^^ decide (togglesOf s x y ⟨cx, cy⟩ (8 * n.toNat) % 2 = 1)) :=
        fbGet_of_draw (s := { s with fb := t.fb }) hmem hbox hu hg
    _ = fbGet s.cfg s.fb cx cy := by
        rw [fbGet_of_draw hmem hbox ht hg, Bool.xor_assoc, Bool.xor_self, Bool.xor_false]

end

/-- Settles O47: under a 1 bit the second draw finds the cell lit iff the first one lit it. -/
theorem drawingTwiceRestoresTheScreen : Obligations.DrawingTwiceRestoresTheScreen := by
  intro x y n s hmem hbox hcanon
  obtain ⟨t, ht, -, -, -, hframe⟩ := drawXorsTheSpriteOntoTheGrid x y n s hmem fun _ => hbox
  have hsecond : { t with v := s.v } = { s with fb := t.fb } := by rw [hframe]
  obtain ⟨u, hu, hflag⟩ := drawCollidesIffALitCellIsHit x y n { s with fb := t.fb } hmem hbox
  refine ⟨t, u, ht, hsecond ▸ hu, fb_of_draw_twice hmem hbox hcanon ht hu, hflag.trans (if_congr ?_ rfl rfl)⟩
  refine exists_congr fun k => and_congr_right fun hk => and_congr_right fun (hbit : spriteBit s k = true) => ?_
  change fbGet s.cfg t.fb (visitX s x k) (visitY s y k) = true ↔ _
  rw [fbGet_visited_of_draw hmem hbox ht hk, hbit, Bool.xor_true, Bool.not_eq_true']

/-- Settles O48: the first draw leaves the cells under the second sprite's 1 bits unlit. -/
theorem disjointSpritesNeverCollide : Obligations.DisjointSpritesNeverCollide := by
  intro x y x' y' n n' s s' t u hbox hbox' hmem hmem' ht hfb hcfg hu hunlit hunlit' hdisjoint
  have hcfg' : s'.cfg = s.cfg := hcfg.trans (effect_of_exec ht).cfg_eq
  refine ⟨readV_vf_of_draw_of_unlit hmem hbox ht hunlit, readV_vf_of_draw_of_unlit hmem' hbox' hu fun k' hk' hbit' => ?_⟩
  calc fbGet s'.cfg s'.fb (visitX s' x' k') (visitY s' y' k')
      = fbGet s.cfg t.fb (visitX s' x' k') (visitY s' y' k') := by rw [hcfg', hfb]
    _ = fbGet s.cfg s.fb (visitX s' x' k') (visitY s' y' k') :=
        fbGet_of_draw_of_unhit hmem hbox ht (hcfg' ▸ hbox' k' hk') fun k hk hbit => hdisjoint k hk k' hk' hbit hbit'
    _ = false := hunlit' k' hk' hbit'

end Sys2Proof.Machine

/-! Input and timers (44_input_timers.md): the key skips, the wait for a key as polls, and the moves of the timers. -/

namespace Sys2Proof.Machine

/-! ### A poll for a key -/

/-- The state after a poll that brought the key `c` for `Vx`, with the answers `left` (10_state.md R45). -/
def keyTaken (s : State) (x : RegIdx) (c : Key) (left : Feed (Option Key)) : State :=
  { writeV s x (c.setWidth 8) with wait := none, waits := left }

/-- A key code is zero-extended to the byte it is written as (44_input_timers.md R170). -/
theorem readV_keyTaken_self (s : State) (x : RegIdx) (c : Key) (left : Feed (Option Key)) :
    (readV (keyTaken s x c left) x).toNat = c.toNat :=
  (congrArg BitVec.toNat (readV_writeV_self s x _)).trans (BitVec.toNat_setWidth_of_le (by decide))

theorem readV_keyTaken_of_ne {x r : RegIdx} (s : State) (c : Key) (left : Feed (Option Key)) (hr : r ≠ x) :
    readV (keyTaken s x c left) r = readV s r :=
  readV_writeV_of_ne s _ hr

theorem sameMemory_pollWait (s : State) (x : RegIdx) : sameMemory s (pollWait s x) :=
  memByte_congr (pollWait_mem s x) (pollWait_cfg s x)

/-- Every poll takes one answer. -/
theorem pollWait_drawn (s : State) (x : RegIdx) : (pollWait s x).waits.drawn = s.waits.drawn + 1 := by
  rcases pollWait_cases s x with ⟨c, -, h⟩ | ⟨-, h⟩ <;> rw [h] <;> exact draw_drawn _ s.waits

/-- Whatever is queued, a poll leaves the core in `WAIT(x)`, or puts a key into `Vx` and ends the wait (R170). -/
theorem pollWait_waits_or_takes (s : State) (x : RegIdx) :
    pollWait s x = { s with wait := some x, waits := (pollWait s x).waits } ∨
      ∃ c : Key, (readV (pollWait s x) x).toNat = c.toNat ∧ (∀ r, r ≠ x → readV (pollWait s x) r = readV s r) ∧
        pollWait s x = { s with v := (pollWait s x).v, wait := none, waits := (pollWait s x).waits } := by
  rcases pollWait_cases s x with ⟨c, -, h⟩ | ⟨-, h⟩
  · have htaken : pollWait s x = keyTaken s x c (keyWaitPoll s).2.waits := h
    rw [htaken]
    exact .inr ⟨c, readV_keyTaken_self s x c _, fun r hr => readV_keyTaken_of_ne s c _ hr, rfl⟩
  · rw [h]
    exact .inl rfl

/-! ### A waiting core -/

/-- In `WAIT(x)` a step is one poll, without tick or fetch (10_state.md R45). -/
theorem step_of_waiting {s : State} {x : RegIdx} (hhalt : s.halt = none) (hwait : s.wait = some x) :
    step s = .next (pollWait s x) := by
  simp only [step, hhalt, hwait]

/-- The state after `n` polls that brought no key, with the answers `left`. -/
def polledInVain (s : State) (n : Nat) (left : List (Option Key)) : State :=
  { s with waits := ⟨left, s.waits.drawn + n⟩ }

theorem polledInVain_polledInVain (s : State) (m n : Nat) (left left' : List (Option Key)) :
    polledInVain (polledInVain s m left) n left' = polledInVain s (m + n) left' := by
  simp only [polledInVain, Nat.add_assoc]

/-- A waiting core whose next answer is no key goes on waiting. -/
theorem step_of_waiting_queued_none {s : State} {x : RegIdx} {rest : List (Option Key)} (hhalt : s.halt = none)
    (hwait : s.wait = some x) (hq : s.waits.queued = none :: rest) : step s = .next (polledInVain s 1 rest) := by
  rw [step_of_waiting hhalt hwait, pollWait_queued_none hq, ← hwait, polledInVain]

/-- A waiting core whose next answer is a key takes it. -/
theorem step_of_waiting_queued_key {s : State} {x : RegIdx} {c : Key} {rest : List (Option Key)} (hhalt : s.halt = none)
    (hwait : s.wait = some x) (hq : s.waits.queued = some c :: rest) :
    step s = .next (keyTaken s x c ⟨rest, s.waits.drawn + 1⟩) := by
  rw [step_of_waiting hhalt hwait, pollWait_queued_key hq, keyTaken]

/-- A run of `n + m` steps goes on for `m` from the state its first `n` answer. -/
theorem run_add {n : Nat} {s t : State} (m : Nat) (h : Host.Core.run Sys2Proof.core n s = .next t) :
    Host.Core.run Sys2Proof.core (n + m) s = Host.Core.run Sys2Proof.core m t := by
  induction n generalizing s with
  | zero =>
    cases h
    rw [Nat.zero_add]
  | succ n ih =>
    obtain ⟨u, hu⟩ := everyStepAnswersNext s
    rw [run_succ n hu] at h
    rw [Nat.add_right_comm, run_succ (n + m) hu, ih h]

/-- Polls that bring no key change nothing but the answers left. -/
theorem run_of_replicate_none {s : State} {x : RegIdx} {n : Nat} {rest : List (Option Key)} (hhalt : s.halt = none)
    (hwait : s.wait = some x) (hq : s.waits.queued = List.replicate n none ++ rest) :
    Host.Core.run Sys2Proof.core n s = .next (polledInVain s n rest) := by
  induction n generalizing s with
  | zero =>
    cases hq
    rfl
  | succ n ih =>
    have hpoll : step s = .next (polledInVain s 1 (List.replicate n none ++ rest)) :=
      step_of_waiting_queued_none hhalt hwait hq
    have hpolls := ih (s := polledInVain s 1 (List.replicate n none ++ rest)) hhalt hwait rfl
    rw [run_succ n hpoll, hpolls, polledInVain_polledInVain, Nat.add_comm]

/-- The poll after those in vain takes the key that comes next. -/
theorem run_until_key {s : State} {x : RegIdx} {c : Key} {n : Nat} {rest : List (Option Key)} (hhalt : s.halt = none)
    (hwait : s.wait = some x) (hq : s.waits.queued = List.replicate n none ++ some c :: rest) :
    Host.Core.run Sys2Proof.core (n + 1) s = .next (keyTaken s x c ⟨rest, s.waits.drawn + n + 1⟩) := by
  have hkey : step (polledInVain s n (some c :: rest)) = .next (keyTaken s x c ⟨rest, s.waits.drawn + n + 1⟩) :=
    step_of_waiting_queued_key hhalt hwait rfl
  exact (run_add 1 (run_of_replicate_none hhalt hwait hq)).trans (run_succ 0 hkey)

/-- Settles O53: a step of a waiting core is one poll; `n` in vain are followed by the one that takes the key. -/
theorem waitingChangesNothingUntilTheKey : Obligations.WaitingChangesNothingUntilTheKey := by
  refine fun s x hhalt hwait => ⟨⟨_, step_of_waiting hhalt hwait, sameMemory_pollWait s x, pollWait_drawn s x, ?_⟩,
    fun c n rest hq => ⟨run_of_replicate_none hhalt hwait hq, _, run_until_key hhalt hwait hq,
      readV_keyTaken_self s x c _, fun r hr => readV_keyTaken_of_ne s c _ hr, memByte_congr rfl rfl, rfl⟩⟩
  have hpoll := pollWait_waits_or_takes s x
  rwa [← hwait] at hpoll

theorem exec_waitKey (x : RegIdx) (s : State) : exec (.waitKey x) s = .next (pollWait s x) := rfl

/-- Settles O52: WaitKey is one poll. -/
theorem waitKeyTakesAKeyOrWaits : Obligations.WaitKeyTakesAKeyOrWaits := by
  refine fun x s => ⟨fun c rest hq => ?_, fun rest hq => ?_, fun _ => ?_⟩
  · exact ⟨keyTaken s x c ⟨rest, s.waits.drawn + 1⟩, congrArg Host.Outcome.next (pollWait_queued_key hq),
      readV_keyTaken_self s x c _, fun r hr => readV_keyTaken_of_ne s c _ hr, memByte_congr rfl rfl, rfl, rfl⟩
  · rw [exec_waitKey, pollWait_queued_none hq]
  · exact ⟨_, exec_waitKey x s, sameMemory_pollWait s x, pollWait_waits_or_takes s x⟩

/-! ### The key skips -/

/-- A key matches a byte iff its code is the value of the whole byte; no key matches none (44_input_timers.md R167). -/
theorem keyMatches_iff (key : Option Key) (b : Byte) :
    keyMatches key b = true ↔ key.map BitVec.toNat = some b.toNat := by
  cases key with
  | none => simp [keyMatches]
  | some c =>
    have hcode : (c.setWidth 8).toNat = c.toNat := BitVec.toNat_setWidth_of_le (by decide)
    simp [keyMatches, BitVec.toNat_eq, hcode]

/-- A skip on the answer of `KeyPeek()` changes `PC` and the answers left only. -/
theorem skipIf_keyPeek_frame (s : State) (cond : Bool) :
    sameRegisters s (skipIf (keyPeek s).2 cond) ∧ sameMemory s (skipIf (keyPeek s).2 cond) ∧
      skipIf (keyPeek s).2 cond =
        { s with pc := (skipIf (keyPeek s).2 cond).pc, peeks := (skipIf (keyPeek s).2 cond).peeks } := by
  cases cond <;> exact ⟨readV_congr rfl, memByte_congr rfl rfl, rfl⟩

theorem keyPeek_of_queued {s : State} {key : Option Key} {rest : List (Option Key)}
    (hq : s.peeks.queued = key :: rest) : keyPeek s = (key, { s with peeks := ⟨rest, s.peeks.drawn + 1⟩ }) := by
  rw [keyPeek, draw_queued _ _ _ _ hq]

theorem exec_skipKeyPressed (x : RegIdx) (s : State) :
    exec (.skipKeyPressed x) s = .next (skipIf (keyPeek s).2 (keyMatches (keyPeek s).1 (readV s x))) := rfl

theorem exec_skipKeyNotPressed (x : RegIdx) (s : State) :
    exec (.skipKeyNotPressed x) s = .next (skipIf (keyPeek s).2 (!keyMatches (keyPeek s).1 (readV s x))) := rfl

/-- Settles O51: the answer is that of `KeyPeek()`. -/
theorem keySkipsCompareTheWholeByte : Obligations.KeySkipsCompareTheWholeByte := by
  intro x s
  obtain ⟨hregs, hmem, hframe⟩ := skipIf_keyPeek_frame s (keyMatches (keyPeek s).1 (readV s x))
  obtain ⟨hregs', hmem', hframe'⟩ := skipIf_keyPeek_frame s (!keyMatches (keyPeek s).1 (readV s x))
  refine ⟨(keyPeek s).1, _, _, exec_skipKeyPressed x s, exec_skipKeyNotPressed x s, fun key rest hq => ?_, ?_, ?_,
    hregs, hmem, hframe, hregs', hmem', hframe'⟩
  · rw [skipIf_peeks, skipIf_peeks, keyPeek_of_queued hq]
    exact ⟨rfl, rfl, rfl⟩
  · simp only [skipIf_pc, keyPeek_pc, keyMatches_iff]
  · simp only [skipIf_pc, keyPeek_pc, ← keyMatches_iff]
    cases keyMatches (keyPeek s).1 (readV s x) <;> rfl

/-! ### The timer instructions -/

/-- Settles O54: SetRegFromDelay writes one register, the other two one timer. -/
theorem timerInstructionsMoveTheTimers : Obligations.TimerInstructionsMoveTheTimers := fun x s =>
  ⟨⟨_, rfl, readV_writeV_self s x _, onlyRegisters_writeV s x _⟩,
    ⟨_, rfl, rfl, readV_congr rfl, memByte_congr rfl rfl, rfl⟩,
    ⟨_, rfl, rfl, readV_congr rfl, memByte_congr rfl rfl, rfl⟩⟩

end Sys2Proof.Machine

/-! Exceptions, timers and the framebuffer (60_exceptions.md): what a fault records and leaves, the tick of every step, and
the cells off the grid. -/

namespace Sys2Proof.Machine

/-! ### What raises a fault, and the state it leaves -/

/-- The causes an executing instruction can halt with, each with the check that fails (60_exceptions.md R174). -/
inductive Raises (s : State) : Instr → Cause → Prop
  | memBounds {i : Instr} {a : Nat} (hblock : firstOutOfRange s i.blockLength = some a) : Raises s i (.memBounds a)
  | stackOverflow {nnn : Addr12} (hfull : s.sp.val = 256) : Raises s (.call nnn) .stackOverflow
  | stackUnderflow (hempty : s.sp.val = 0) : Raises s .ret .stackUnderflow
  | fbBounds {x y : RegIdx} {n : Nibble} {cx cy : Nat} (hfault : s.cfg.offGrid = .fault) (hoff : ¬ s.cfg.onGrid cx cy) :
      Raises s (.draw x y n) (.fbBounds cx cy)

/-- A visit that `firstOffGrid` answers is off the grid, and only the policy `fault` asks for one (R193). -/
theorem offGrid_of_firstOffGrid {c : Config} {visits : List Visit} {cell : Visit}
    (h : firstOffGrid c visits = some cell) : c.offGrid = .fault ∧ ¬ c.onGrid cell.x cell.y := by
  rw [firstOffGrid, Option.ite_none_right_eq_some] at h
  obtain ⟨hfault, hfind⟩ := h
  exact ⟨hfault, by simpa only [Bool.not_eq_true', decide_eq_false_iff_not] using List.find?_some hfind⟩

/-- An instruction leaves HALT alone, or raises a fault and has written nothing (R177). -/
theorem Effect.halt_eq_or_faulted {i : Instr} {s t : State} (h : Effect s i t) :
    t.halt = s.halt ∨ ∃ cause, Raises s i cause ∧ t = faulted s cause := by
  cases h with
  | faultsMemBounds hblock => exact .inr ⟨_, .memBounds hblock, rfl⟩
  | faultsFbBounds hblock hbox =>
    obtain ⟨hfault, hoff⟩ := offGrid_of_firstOffGrid hbox
    exact .inr ⟨_, .fbBounds hfault hoff, rfl⟩
  | faultsOverflow hfull => exact .inr ⟨_, .stackOverflow hfull, rfl⟩
  | faultsUnderflow hempty => exact .inr ⟨_, .stackUnderflow hempty, rfl⟩
  | _ => exact .inl (by simp)

/-- An instruction that halts an unhalted core has raised a fault. -/
theorem faulted_of_exec_of_halt {i : Instr} {s t : State} {r : HaltRecord} (hs : s.halt = none)
    (h : exec i s = .next t) (hr : t.halt = some r) : ∃ cause, Raises s i cause ∧ t = faulted s cause := by
  refine (effect_of_exec h).halt_eq_or_faulted.resolve_left fun heq => ?_
  simp [heq, hs] at hr

/-- Settles O12, by the causes of `Raises`. -/
theorem faultsHaveTheListedCauses : Obligations.FaultsHaveTheListedCauses := by
  intro i s t r hs h hr
  obtain ⟨cause, hcause, rfl⟩ := faulted_of_exec_of_halt hs h hr
  cases hr
  refine ⟨rfl, ?_⟩
  cases hcause with
  | memBounds hblock =>
    obtain ⟨hpos, hout, rfl⟩ := firstOutOfRange_eq_some.1 hblock
    exact .inl ⟨hpos, hout, rfl, rfl⟩
  | stackOverflow hfull => exact .inr (.inl ⟨⟨_, rfl⟩, hfull, rfl, rfl⟩)
  | stackUnderflow hempty => exact .inr (.inr (.inl ⟨rfl, hempty, rfl, rfl⟩))
  | fbBounds hfault hoff => exact .inr (.inr (.inr ⟨_, _, _, _, _, rfl, hfault, hoff, rfl, rfl⟩))

/-- `PC` goes back from behind the instruction to the instruction (10_state.md R32, 60_exceptions.md R177). -/
theorem faulted_advance (s : State) (cause : Cause) : faulted (advance s) cause = raise s s.pc cause := by
  rw [faulted, advance_pc, BitVec.add_sub_cancel]
  rfl

/-- A step that halts a ready core leaves the ticked state with the fault raised at the fetch address. -/
theorem raise_of_step_of_halt {s t : State} {r : HaltRecord} (hready : s.ready) (hstep : step s = .next t)
    (hr : t.halt = some r) : ∃ cause, t = raise (ticked s) s.pc cause := by
  rcases step_cases_of_ready hready with ⟨-, h⟩ | ⟨hi, lo, w, -, -, h⟩ | ⟨i, -, h⟩ <;> rw [h] at hstep
  · cases hstep
    exact ⟨_, rfl⟩
  · cases hstep
    exact ⟨_, rfl⟩
  · obtain ⟨cause, -, rfl⟩ := faulted_of_exec_of_halt (s := advance (ticked s)) hready.1 hstep hr
    exact ⟨cause, faulted_advance _ _⟩

/-- Settles O11: a fault raised at the `PC` of the ticked state writes HALT only. -/
theorem stepFaultIsPrecise : Obligations.StepFaultIsPrecise := by
  intro s t r hready hstep hr
  obtain ⟨cause, rfl⟩ := raise_of_step_of_halt hready hstep hr
  cases hr
  exact ⟨rfl, rfl⟩

/-! ### A halted core -/

theorem step_of_halted {s : State} (h : s.halt ≠ none) : step s = .next s := by
  obtain ⟨r, hr⟩ := Option.ne_none_iff_exists'.1 h
  simp only [step, hr]

/-- Settles O9, by induction on the number of steps. -/
theorem haltedCoreNeverChanges : Obligations.HaltedCoreNeverChanges := by
  intro s n h
  induction n with
  | zero => rfl
  | succ n ih => rw [run_succ n (step_of_halted h), ih]

/-! ### The tick -/

theorem ticked_dt_toNat (s : State) : (ticked s).dt.toNat = s.dt.toNat - 1 := by
  rw [← beginStep_eq_ticked, beginStep_dt, countDown_toNat]

theorem ticked_st_toNat (s : State) : (ticked s).st.toNat = s.st.toNat - 1 := by
  rw [← beginStep_eq_ticked, beginStep_st, countDown_toNat]

/-- After the tick a step of a ready core writes no timer, except by a fetched SetDelay or SetSound (R183). -/
theorem timers_of_step {s t : State} (hready : s.ready) (hstep : step s = .next t) :
    ((∀ x, fetchedInstr s ≠ some (.setDelay x)) → t.dt = (ticked s).dt) ∧
    ((∀ x, fetchedInstr s ≠ some (.setSound x)) → t.st = (ticked s).st) := by
  rcases step_cases_of_ready hready with ⟨-, h⟩ | ⟨hi, lo, w, -, -, h⟩ | ⟨i, hi, h⟩ <;> rw [h] at hstep
  · cases hstep
    exact ⟨fun _ => rfl, fun _ => rfl⟩
  · cases hstep
    exact ⟨fun _ => rfl, fun _ => rfl⟩
  · have heffect := effect_of_exec hstep
    exact ⟨fun hdelay => heffect.dt_eq fun x hx => hdelay x (hx ▸ hi),
      fun hsound => heffect.st_eq fun x hx => hsound x (hx ▸ hi)⟩

/-- Settles O14. -/
theorem timersFallByOneInEveryStep : Obligations.TimersFallByOneInEveryStep := by
  intro s t hready hstep
  obtain ⟨hdt, hst⟩ := timers_of_step hready hstep
  exact ⟨fun hdelay => hdt hdelay ▸ ticked_dt_toNat s, fun hsound => hst hsound ▸ ticked_st_toNat s⟩

/-! ### Cells on and off the grid -/

theorem resolveCell_clip {c : Config} {x y : Nat} (hoff : ¬ c.onGrid x y) (hclip : c.offGrid = .clip) :
    resolveCell c x y = none := by
  simp [resolveCell, hoff, hclip]

/-- Off the grid, under `wrap`, a coordinate stands for the cell that its remainders stand for (R193). -/
theorem resolveCell_wrap {c : Config} {x y : Nat} (hoff : ¬ c.onGrid x y) (hwrap : c.offGrid = .wrap)
    (hcols : c.hasColumns) (hrows : c.hasRows) : resolveCell c x y = resolveCell c (x % c.fbW) (y % c.fbH) := by
  rw [resolveCell_onGrid ⟨Nat.mod_lt x hcols, Nat.mod_lt y hrows⟩, resolveCell, if_neg hoff,
    if_pos ⟨hwrap, hcols, hrows⟩]

theorem fbSet_of_unresolved {c : Config} {x y : Nat} (fb : List Pixel) (b : Bool) (h : resolveCell c x y = none) :
    fbSet c fb x y b = fb := by
  rw [fbSet, h]

/-- Coordinates that stand for the same cell are read and written alike. -/
theorem fbGet_fbSet_congr {c : Config} {x y x' y' : Nat} (fb : List Pixel) (b : Bool)
    (h : resolveCell c x y = resolveCell c x' y') :
    fbGet c fb x y = fbGet c fb x' y' ∧ fbSet c fb x y b = fbSet c fb x' y' b := by
  simp only [fbGet, fbSet, h, and_self]

/-- A write to a cell of the grid is seen by reads of that cell and of no other on the grid (R189, R190). -/
theorem fbGet_fbSet_onGrid {c : Config} {x y x' y' : Nat} (fb : List Pixel) (b : Bool) (h : c.onGrid x y)
    (h' : c.onGrid x' y') : fbGet c (fbSet c fb x y b) x' y' = if x' = x ∧ y' = y then b else fbGet c fb x' y' := by
  rw [fbGet_fbSet, resolveCell_onGrid h, resolveCell_onGrid h']
  simp only [Option.some.injEq, Pixel.mk.injEq, Option.isSome_some, and_true]

/-- Settles O49, by the cell a coordinate stands for. -/
theorem offGridCellsFollowThePolicy : Obligations.OffGridCellsFollowThePolicy := by
  refine fun c fb x y b => ⟨fun h x' y' h' => fbGet_fbSet_onGrid fb b h h', fun hoff hclip => ?_,
    fun hoff hwrap hcols hrows => fbGet_fbSet_congr fb b (resolveCell_wrap hoff hwrap hcols hrows)⟩
  have hnone := resolveCell_clip hoff hclip
  exact ⟨fbGet_of_unresolved hnone, fbSet_of_unresolved fb b hnone⟩

end Sys2Proof.Machine

/-! Reset and hazards (70_reset_and_hazards.md): the state after reset, the first fetch after `load`, a timer read right
behind its write, and a parked core. -/

namespace Sys2Proof.Machine

/-! ### Reset, and the first step after `load` -/

/-- Settles O57, field by field. -/
theorem resetLeavesNothingPending : Obligations.ResetLeavesNothingPending := by
  refine ⟨fun c => ⟨rfl, rfl, fun k hk => ?_, rfl, rfl, rfl, rfl, fun x y => fbGet_onGrid c.fbInit⟩,
    fbGet_fbClear Config.standard⟩
  rw [resetWith_stack, Vector.getElem_replicate]

/-- Behind the font a machine that was loaded right after reset holds the program from 0x200, and 0 where it has no byte
(20_memory.md R59, R60). -/
theorem memByte_of_load_resetWith {c : Config} {bytes : List Byte} {t : State} {k : Nat}
    (h : load bytes (State.resetWith c) = .next t) (hk : k < 3584) : memByte t (0x200 + k) = bytes.getD k 0 := by
  obtain ⟨t', ht', hcopied, hkept, -⟩ := loadCopiesAndTruncates bytes (State.resetWith c) rfl
  cases h.symm.trans ht'
  by_cases hlen : k < bytes.length
  · rw [hcopied k hlen hk, List.getD_eq_getElem _ _ hlen]
  · rw [hkept _ (by omega), memByte_resetWith, resetByte_of_le c (by omega), List.getD_eq_default _ _ (by omega)]

/-- A load changes neither `PC` nor whether the core is ready (20_memory.md R60). -/
theorem pc_halt_wait_of_load {bytes : List Byte} {s t : State} (h : load bytes s = .next t) :
    t.pc = s.pc ∧ t.halt = s.halt ∧ t.wait = s.wait := by
  obtain ⟨-, rfl⟩ := eq_of_load h
  simp [loadProgram]

/-- Settles O58: the fetch at 0x200 reads the program, and the word 0x0000 is illegal. -/
theorem firstStepFetchesTheLoadedWord : Obligations.FirstStepFetchesTheLoadedWord := by
  intro c bytes t h
  obtain ⟨hpc, hready⟩ : t.pc = 0x200 ∧ t.ready := pc_halt_wait_of_load h
  have hfetch : fetchBytes t = some (bytes.getD 0 0, bytes.getD 1 0) := by
    rw [fetchBytes_eq_some (by rw [hpc]; decide), hpc]
    exact congrArg some
      (Prod.ext (memByte_of_load_resetWith (k := 0) h (by omega)) (memByte_of_load_resetWith (k := 1) h (by omega)))
  refine ⟨hready, hfetch, fun hempty => ?_⟩
  subst hempty
  have hdecode : decode 0x00 0x00 = .illegal 0x0000 := by decide
  rw [step_of_illegal hready hfetch hdecode, ← hpc]
  rfl

/-! ### A timer read right behind its write -/

/-- A step that fetches SetDelay leaves a ready core, with `Vx` in `DT` (R172). -/
theorem ready_and_dt_of_setDelay {x : RegIdx} {s t : State} (hready : s.ready) (hi : fetchedInstr s = some (.setDelay x))
    (hstep : step s = .next t) : t.ready ∧ t.dt = readV s x := by
  rw [step_of_fetchedInstr hready hi] at hstep
  cases hstep
  exact ⟨hready, rfl⟩

/-- A step that fetches SetRegFromDelay reads `DT` after its own tick (R171). -/
theorem step_of_setRegFromDelay {y : RegIdx} {s : State} (hready : s.ready)
    (hi : fetchedInstr s = some (.setRegFromDelay y)) :
    step s = .next (writeV (advance (ticked s)) y (ticked s).dt) := step_of_fetchedInstr hready hi

/-- Settles O55: only the tick of the second step lies between the write and the read (R207). -/
theorem timerReadLagsByOneTick : Obligations.TimerReadLagsByOneTick := by
  intro x y s t hready hset hstep hread
  obtain ⟨hready', hdt⟩ := ready_and_dt_of_setDelay hready hset hstep
  refine ⟨_, step_of_setRegFromDelay hready' hread, ?_, (readV_writeV_self _ y _).symm⟩
  rw [readV_writeV_self, ticked_dt_toNat, hdt]

/-! ### A parked core -/

/-- The state after `n` steps that only tick. -/
def tickedBy (s : State) (n : Nat) : State :=
  { s with phase := .running, dt := BitVec.ofNat 8 (s.dt.toNat - n), st := BitVec.ofNat 8 (s.st.toNat - n) }

theorem tickedBy_one (s : State) : tickedBy s 1 = ticked s := rfl

/-- A timer lowered twice, never below 0, is lowered by the sum. -/
theorem byte_lowered_lowered (b : Byte) (m n : Nat) :
    BitVec.ofNat 8 ((BitVec.ofNat 8 (b.toNat - m)).toNat - n) = BitVec.ofNat 8 (b.toNat - (m + n)) := by
  have hb : b.toNat - m < 2 ^ 8 := by omega
  rw [BitVec.toNat_ofNat, Nat.mod_eq_of_lt hb, Nat.sub_sub]

theorem tickedBy_tickedBy (s : State) (m n : Nat) : tickedBy (tickedBy s m) n = tickedBy s (m + n) := by
  simp only [tickedBy, byte_lowered_lowered]

/-- A word can be fetched only where it ends inside memory (20_memory.md R51). -/
theorem pc_lt_of_fetchedInstr {s : State} {i : Instr} (h : fetchedInstr s = some i) : s.pc.toNat + 1 < 4096 := by
  by_contra hpc
  have hnone : fetchBytes s = none := fetchBytes_eq_none.2 (by omega)
  simp [fetchedInstr, hnone] at h

/-- Neither the timers nor the phase say whether a core is parked. -/
theorem parked_tickedBy {s : State} (n : Nat) (h : s.parked) : (tickedBy s n).parked := h

theorem exec_goto (nnn : Addr12) (s : State) : exec (.goto nnn) s = .next (jumpTo s (addrOperand nnn)) := rfl

/-- A `PC` that a word can be fetched at is its own low twelve bits (R210). -/
theorem addrOperand_pc {s : State} {i : Instr} (h : fetchedInstr s = some i) :
    addrOperand (s.pc.setWidth 12) = s.pc := by
  have hpc := pc_lt_of_fetchedInstr h
  apply BitVec.eq_of_toNat_eq
  rw [addrOperand_toNat, BitVec.toNat_setWidth]
  omega

/-- The jump of a parked core goes back to where it was fetched, so the tick is all its step does. -/
theorem step_of_parked {s : State} (h : s.parked) : step s = .next (ticked s) := by
  obtain ⟨hready, hgoto⟩ := h
  rw [step_of_fetchedInstr hready hgoto, exec_goto, addrOperand_pc hgoto]
  rfl

theorem run_of_parked {s : State} (n : Nat) (h : s.parked) :
    Host.Core.run Sys2Proof.core (n + 1) s = .next (tickedBy s (n + 1)) := by
  induction n generalizing s with
  | zero => exact run_succ 0 (step_of_parked h)
  | succ n ih =>
    rw [run_succ (n + 1) (step_of_parked h), ← tickedBy_one, ih (parked_tickedBy 1 h), tickedBy_tickedBy, Nat.add_comm]

/-- Settles O23. -/
theorem parkedCoreOnlyTicks : Obligations.ParkedCoreOnlyTicks := fun s n h =>
  ⟨tickedBy s (n + 1), run_of_parked n h, parked_tickedBy (n + 1) h, rfl⟩

end Sys2Proof.Machine

/-! Round trips of the encoding (30_encoding.md R78 to R117): decode and encode are inverse to each other, and the words that
95_test_vectors.md writes out. -/

namespace Sys2Proof

/-! ### Decoding what was encoded -/

/-- The operands of a packed word come back as its fields, and what the format fixes leads the decoder to the row of the
instruction: the first nibble alone, or with it the last nibble (`5XY0`, `8XY_`, `9XY0`) or the low byte (`EX__`, `FX__`). -/
theorem decodeWord_encode (i : Instr) : decodeWord (encode i) = .instr i := by
  cases i with
  | clearScreen | ret => rfl
  | goto | call | setI | jumpV0 => simp [encode, decodeWord, fieldOp_packNnn, fieldNnn_packNnn]
  | skipEqConst | skipNeqConst | setConst | addConst | rand =>
    simp [encode, decodeWord, fieldOp_packXkk, fieldX_packXkk, fieldKk_packXkk]
  | draw => simp [encode, decodeWord, fieldOp_packXyn, fieldX_packXyn, fieldY_packXyn, fieldN_packXyn]
  | skipEqReg | skipNeqReg =>
    simp [encode, decodeWord, decodeSkipReg, fieldOp_packXyn, fieldX_packXyn, fieldY_packXyn, fieldN_packXyn]
  | setReg | orReg | andReg | xorReg | addReg | subReg | shiftRight | subRegRev | shiftLeft =>
    simp [encode, decodeWord, decodeAlu, fieldOp_packXyn, fieldX_packXyn, fieldY_packXyn, fieldN_packXyn]
  | skipKeyPressed | skipKeyNotPressed =>
    simp [encode, decodeWord, decodeKey, fieldOp_packXkk, fieldX_packXkk, fieldKk_packXkk]
  | setRegFromDelay | waitKey | setDelay | setSound | addToI | setIToFontAddr | storeBCD | regDump | regLoad =>
    simp [encode, decodeWord, decodeMisc, fieldOp_packXkk, fieldX_packXkk, fieldKk_packXkk]

/-- Decoding the two bytes of a word is decoding the word (R68). -/
theorem decode_highByte_lowByte (w : Word) : decode (highByte w) (lowByte w) = decodeWord w :=
  congrArg decodeWord (wordOfBytes_split w)

/-- Settles O3, for every instruction: none is ill-formed. -/
theorem decodeOfEncodeIsTheInstruction : Obligations.DecodeOfEncodeIsTheInstruction := fun i _ =>
  (decode_highByte_lowByte (encode i)).trans (decodeWord_encode i)

/-! ### Encoding what was decoded -/

/-- Settles O4: the word that was decoded is the word of its instruction, and it has the two bytes it was put together from. -/
theorem encodeOfDecodedIsTheWord : Obligations.EncodeOfDecodedIsTheWord := by
  intro hi lo i hd
  have hword : encode i = wordOfBytes hi lo := encode_of_decodeWord hd
  exact ⟨hword ▸ highByte_wordOfBytes hi lo, hword ▸ lowByte_wordOfBytes hi lo⟩

/-! ### Words written out -/

/-- Settles O2, by running the decoder on the fourteen words. -/
theorem wordsWrittenOutDecodeAsGiven : Obligations.WordsWrittenOutDecodeAsGiven := by
  unfold Obligations.WordsWrittenOutDecodeAsGiven
  decide

end Sys2Proof
